-- ==== Sys2Proof/Word.lean ====
section
/-! DEFINITION. The unsigned values the hardware reads: bytes, 16-bit, 32-bit and 64-bit words.
Every one is unsigned (spec/00_scope.md R8); positions, sizes and counts are exact naturals and are
`Nat` wherever they occur (R6). -/

namespace Sys2Proof

/-- One byte of a source: an unsigned 8-bit value (spec/20_memory.md R32). -/
abbrev Byte := BitVec 8

/-- A 16-bit payload unit (spec/30_encoding.md R61). -/
abbrev Half := BitVec 16

/-- A command header (spec/30_encoding.md R54), a 32-bit payload unit (R61), a descriptor's
`address` (R48). -/
abbrev Word := BitVec 32

/-- A tag descriptor's 64-bit word (spec/30_encoding.md R48). -/
abbrev Dword := BitVec 64

end Sys2Proof
end

