-- ==== Sys2Proof/Syntax.lean ====
section
/-! DEFINITION. The instructions: one constructor of `Instr` per row of spec/opcode_table.json, the
twelve VIF commands (spec/41_vif_commands.md) and the eight kinds of tag descriptor
(spec/40_tag_descriptor.md). An instruction is what its `VIFCODE` header or its `DMATAG` word says;
a command's payload is read when the command is run (spec/41_vif_commands.md R84). -/

namespace Sys2Proof

/-- `PCE`, the four values of a descriptor's `priority_control` (spec/30_encoding.md R50). All four
are legal, `reserved` among them (spec/40_tag_descriptor.md R73). -/
inductive PriorityControl where
  | noEffect
  | reserved
  | disabled
  | enabled
  deriving DecidableEq, Repr

/-- `TagId`, the eight kinds of tag (spec/30_encoding.md R51). `end_` is the spec's `End`. -/
inductive TagId where
  | refe
  | cnt
  | next
  | ref
  | refs
  | call
  | ret
  | end_
  deriving DecidableEq, Repr

/-- The two wire formats an instruction comes in (spec/30_encoding.md R47). -/
inductive Format where
  /-- `VIFCODE`: a 4-byte command header. -/
  | vifcode
  /-- `DMATAG`: an 8-byte tag descriptor. -/
  | dmatag
  deriving DecidableEq, Repr

/-- The instructions of spec/opcode_table.json, in the table's order. Header bits that an opcode
does not keep are in no constructor (spec/30_encoding.md R60). The fields are those of the decoded
records (spec/41_vif_commands.md R83, spec/40_tag_descriptor.md R67); `numEff` is R55's count. -/
inductive Instr where
  /-- NOP, `cmd = 0x00` (spec/41_vif_commands.md R88). -/
  | nop
  /-- STCYCL, `cmd = 0x01` (R89). -/
  | stcycl (cl wl : BitVec 8)
  /-- STMOD, `cmd = 0x05` (R90). -/
  | stmod (mode : BitVec 2)
  /-- FLUSH, `cmd = 0x11` (R91). -/
  | flush
  /-- MSCNT, `cmd = 0x17` (R92). -/
  | mscnt
  /-- STROW, `cmd = 0x30` (R93). -/
  | strow
  /-- MPG, `cmd = 0x4A` (R94): `address = immediate*8`, `num` the payload length in bytes. -/
  | mpg (address : BitVec 19) (num : BitVec 12)
  /-- UNPACK_S_32, `cmd = 0x60` (R95). -/
  | unpackS32 (address : BitVec 10) (zeroExtension addTops : Bool) (numEff : Nat)
  /-- UNPACK_V2_16, `cmd = 0x65` (R96). -/
  | unpackV2x16 (address : BitVec 10) (zeroExtension addTops : Bool) (numEff : Nat)
  /-- UNPACK_V4_32, `cmd = 0x6C` (R97). -/
  | unpackV4x32 (address : BitVec 10) (zeroExtension addTops : Bool) (numEff : Nat)
  /-- UNPACK_V4_16, `cmd = 0x6D` (R98). -/
  | unpackV4x16 (address : BitVec 10) (zeroExtension addTops : Bool) (numEff : Nat)
  /-- UNPACK_V4_8, `cmd = 0x6E` (R99). -/
  | unpackV4x8 (address : BitVec 10) (zeroExtension addTops : Bool) (numEff : Nat)
  /-- TAG Refe, `id = 0` (spec/40_tag_descriptor.md R74). -/
  | tagRefe (qwordCount : BitVec 16) (padding : BitVec 10) (pce : PriorityControl) (irq : Bool) (address : Word)
  /-- TAG Cnt, `id = 1` (R75). -/
  | tagCnt (qwordCount : BitVec 16) (padding : BitVec 10) (pce : PriorityControl) (irq : Bool) (address : Word)
  /-- TAG Next, `id = 2` (R76). -/
  | tagNext (qwordCount : BitVec 16) (padding : BitVec 10) (pce : PriorityControl) (irq : Bool) (address : Word)
  /-- TAG Ref, `id = 3` (R77). -/
  | tagRef (qwordCount : BitVec 16) (padding : BitVec 10) (pce : PriorityControl) (irq : Bool) (address : Word)
  /-- TAG Refs, `id = 4` (R78). -/
  | tagRefs (qwordCount : BitVec 16) (padding : BitVec 10) (pce : PriorityControl) (irq : Bool) (address : Word)
  /-- TAG Call, `id = 5` (R79). -/
  | tagCall (qwordCount : BitVec 16) (padding : BitVec 10) (pce : PriorityControl) (irq : Bool) (address : Word)
  /-- TAG Ret, `id = 6` (R80). -/
  | tagRet (qwordCount : BitVec 16) (padding : BitVec 10) (pce : PriorityControl) (irq : Bool) (address : Word)
  /-- TAG End, `id = 7` (R81). -/
  | tagEnd (qwordCount : BitVec 16) (padding : BitVec 10) (pce : PriorityControl) (irq : Bool) (address : Word)
  deriving DecidableEq, Repr

/-- The wire format of an instruction: the twelve commands are `VIFCODE` headers, the eight tag kinds
`DMATAG` descriptors (spec/30_encoding.md R47). -/
def Instr.format : Instr → Format
  | .nop | .stcycl .. | .stmod .. | .flush | .mscnt | .strow | .mpg .. | .unpackS32 .. | .unpackV2x16 ..
  | .unpackV4x32 .. | .unpackV4x16 .. | .unpackV4x8 .. => .vifcode
  | .tagRefe .. | .tagCnt .. | .tagNext .. | .tagRef .. | .tagRefs .. | .tagCall .. | .tagRet .. | .tagEnd .. => .dmatag

/-- The number of bytes an item of a format takes in the source before any payload: 4 for a command
header, 8 for a descriptor (spec/30_encoding.md R47). -/
def Format.size : Format → Nat
  | .vifcode => 4
  | .dmatag => 8

end Sys2Proof
end

