-- ==== Sys2Proof/WellFormed.lean ====
section
/-! DEFINITION. Which terms of `Instr` some header or descriptor stands for. The field widths are in
the types; the checks here are the ones a width cannot say: what `Mpg` and `Unpack` compute from
`immediate` and `num`. -/

namespace Sys2Proof

/-- `Mpg.address` is `immediate*8` (spec/30_encoding.md R58). -/
def mpgAddressOk (address : BitVec 19) : Bool := address.toNat % 8 == 0

/-- `Mpg.num` is one of `8, 16, ..., 2040, 2048` (spec/30_encoding.md R58). -/
def mpgNumOk (num : BitVec 12) : Bool := num.toNat % 8 == 0 && 8 ≤ num.toNat && num.toNat ≤ 2048

/-- `num_eff` is a value in `1..256` (spec/30_encoding.md R55). -/
def numEffOk (numEff : Nat) : Bool := 1 ≤ numEff && numEff ≤ 256

/-- A well-formed instruction: one that some word of the spec's encoding decodes to. -/
def Instr.wf : Instr → Bool
  | .nop | .stcycl _ _ | .stmod _ | .flush | .mscnt | .strow => true
  | .mpg address num => mpgAddressOk address && mpgNumOk num
  | .unpackS32 _ _ _ n | .unpackV2x16 _ _ _ n | .unpackV4x32 _ _ _ n | .unpackV4x16 _ _ _ n
  | .unpackV4x8 _ _ _ n => numEffOk n
  | .tagRefe .. | .tagCnt .. | .tagNext .. | .tagRef .. | .tagRefs .. | .tagCall .. | .tagRet .. | .tagEnd .. => true

end Sys2Proof
end

