-- ==== Sys2Proof/Decode.lean ====
section
/-! DEFINITION. From bytes to instructions and back (spec/30_encoding.md). The decoder is total on any
bytes and rejects by name; the encoder after it writes the bytes of a well-formed instruction. The
hardware itself has no encoder (spec/00_scope.md R3): `encode` and `encodeDescriptor` exist to state
that no bit of an encoding is dropped, as spec/40_tag_descriptor.md R82 does. -/

namespace Sys2Proof

/-- `LE(b0, b1, ...)`: the byte at the lowest position is least significant (spec/00_scope.md R10). -/
def leNat : List Byte → Nat
  | [] => 0
  | b :: bs => b.toNat + 256 * leNat bs

/-- The `k` bytes of `v`, least significant first: the inverse of `leNat` (spec/00_scope.md R10). -/
def leBytes : (k : Nat) → (v : Nat) → List Byte
  | 0, _ => []
  | k + 1, v => BitVec.ofNat 8 v :: leBytes k (v / 256)

/-- `w[hi:lo]` for `len = hi - lo + 1` (spec/00_scope.md R7). -/
def field {n : Nat} (w : BitVec n) (lo len : Nat) : BitVec len := BitVec.ofNat len (w.toNat >>> lo)

/-- The names of the twelve known opcodes, in the order of spec/30_encoding.md R63. -/
inductive Opcode where
  | nop
  | stcycl
  | stmod
  | flush
  | mscnt
  | strow
  | mpg
  | unpackS32
  | unpackV2x16
  | unpackV4x32
  | unpackV4x16
  | unpackV4x8
  deriving DecidableEq, Repr

/-- The dispatch table, kept as data (spec/30_encoding.md R63, spec/41_vif_commands.md R84). It is
the authoritative list: twelve rows (spec/90_conflicts.md C1). -/
def opcodeTable : List (Byte × Opcode) :=
  [(0x00, .nop), (0x01, .stcycl), (0x05, .stmod), (0x11, .flush), (0x17, .mscnt), (0x30, .strow),
   (0x4A, .mpg), (0x60, .unpackS32), (0x65, .unpackV2x16), (0x6C, .unpackV4x32), (0x6D, .unpackV4x16),
   (0x6E, .unpackV4x8)]

/-- The opcode a byte selects; every byte that is not in the table is unknown
(spec/30_encoding.md R63, R64). All eight bits select (R54). -/
def opcodeOf (cmd : Byte) : Option Opcode := opcodeTable.lookup cmd

/-- `num_eff = num != 0 ? num : 256` (spec/30_encoding.md R55). -/
def numEffOf (num : Byte) : Nat := if num.toNat ≠ 0 then num.toNat else 256

/-- `Mpg.num = num != 0 ? num*8 : 2048` (spec/30_encoding.md R58). -/
def mpgNumOf (num : Byte) : BitVec 12 := BitVec.ofNat 12 (if num.toNat ≠ 0 then num.toNat * 8 else 2048)

/-- `Mpg.address = immediate*8`, exact in 19 bits, not reduced modulo `2^16`
(spec/30_encoding.md R58, spec/92_eei_decisions.md D5). -/
def mpgAddressOf (imm : BitVec 16) : BitVec 19 := BitVec.ofNat 19 (imm.toNat * 8)

/-- Why the decoder gives no instruction. -/
inductive Rejection where
  /-- Fewer bytes than the format's 4 or 8 (spec/30_encoding.md R47). -/
  | short (f : Format)
  /-- A header whose opcode byte is not in the table (spec/30_encoding.md R64). -/
  | unknownOpcode (cmd : Byte)
  deriving DecidableEq, Repr

/-- The command of a header word (spec/30_encoding.md R54 to R60, R63; the dispatch of
spec/41_vif_commands.md R84 up to the payload). -/
def decodeCommand (h : Word) : Except Rejection Instr :=
  let imm : BitVec 16 := field h 0 16
  let num : Byte := field h 16 8
  let cmd : Byte := field h 24 8
  let address : BitVec 10 := field imm 0 10
  let zeroExtension : Bool := field imm 14 1 == 1
  let addTops : Bool := field imm 15 1 == 1
  match opcodeOf cmd with
  | none => .error (.unknownOpcode cmd)
  | some .nop => .ok .nop
  | some .stcycl => .ok (.stcycl (field imm 0 8) (field imm 8 8))
  | some .stmod => .ok (.stmod (field imm 0 2))
  | some .flush => .ok .flush
  | some .mscnt => .ok .mscnt
  | some .strow => .ok .strow
  | some .mpg => .ok (.mpg (mpgAddressOf imm) (mpgNumOf num))
  | some .unpackS32 => .ok (.unpackS32 address zeroExtension addTops (numEffOf num))
  | some .unpackV2x16 => .ok (.unpackV2x16 address zeroExtension addTops (numEffOf num))
  | some .unpackV4x32 => .ok (.unpackV4x32 address zeroExtension addTops (numEffOf num))
  | some .unpackV4x16 => .ok (.unpackV4x16 address zeroExtension addTops (numEffOf num))
  | some .unpackV4x8 => .ok (.unpackV4x8 address zeroExtension addTops (numEffOf num))

/-- `PCE(code)` (spec/30_encoding.md R50). -/
def priorityControlOf (code : BitVec 2) : PriorityControl :=
  match code.toNat with
  | 0 => .noEffect
  | 1 => .reserved
  | 2 => .disabled
  | _ => .enabled

/-- `TagId(code)` (spec/30_encoding.md R51). -/
def tagIdOf (code : BitVec 3) : TagId :=
  match code.toNat with
  | 0 => .refe
  | 1 => .cnt
  | 2 => .next
  | 3 => .ref
  | 4 => .refs
  | 5 => .call
  | 6 => .ret
  | _ => .end_

/-- The tag of a descriptor word; every one of the `2^64` words is legal
(spec/30_encoding.md R48, R52). -/
def decodeDescriptor (w : Dword) : Instr :=
  let qwordCount : BitVec 16 := field w 0 16
  let padding : BitVec 10 := field w 16 10
  let pce := priorityControlOf (field w 26 2)
  let irq : Bool := field w 31 1 == 1
  let address : Word := field w 32 32
  match tagIdOf (field w 28 3) with
  | .refe => .tagRefe qwordCount padding pce irq address
  | .cnt => .tagCnt qwordCount padding pce irq address
  | .next => .tagNext qwordCount padding pce irq address
  | .ref => .tagRef qwordCount padding pce irq address
  | .refs => .tagRefs qwordCount padding pce irq address
  | .call => .tagCall qwordCount padding pce irq address
  | .ret => .tagRet qwordCount padding pce irq address
  | .end_ => .tagEnd qwordCount padding pce irq address

/-- The decoder: the instruction at the front of some bytes, in a given format, with the bytes after
it. Which format is read at a position is the engine's phase (spec/44_sequencer.md R122, R123, R126,
R127); the header and the descriptor are each read as one little-endian word (spec/20_memory.md R33). -/
def decode : Format → List Byte → Except Rejection (Instr × List Byte)
  | .vifcode, b0 :: b1 :: b2 :: b3 :: rest =>
    match decodeCommand (BitVec.ofNat 32 (leNat [b0, b1, b2, b3])) with
    | .ok i => .ok (i, rest)
    | .error e => .error e
  | .dmatag, b0 :: b1 :: b2 :: b3 :: b4 :: b5 :: b6 :: b7 :: rest =>
    .ok (decodeDescriptor (BitVec.ofNat 64 (leNat [b0, b1, b2, b3, b4, b5, b6, b7])), rest)
  | f, _ => .error (.short f)

/-! ## The encoder -/

/-- The code of a `priority_control` name: its position in the enumeration (spec/30_encoding.md R50). -/
def PriorityControl.code : PriorityControl → Nat
  | .noEffect => 0
  | .reserved => 1
  | .disabled => 2
  | .enabled => 3

/-- The code of a tag kind: its position in the enumeration (spec/30_encoding.md R51). -/
def TagId.code : TagId → Nat
  | .refe => 0
  | .cnt => 1
  | .next => 2
  | .ref => 3
  | .refs => 4
  | .call => 5
  | .ret => 6
  | .end_ => 7

/-- The word of a descriptor (spec/40_tag_descriptor.md R82). -/
def encodeDescriptor (id : TagId) (qwordCount : BitVec 16) (padding : BitVec 10) (pce : PriorityControl) (irq : Bool)
    (address : Word) : Nat :=
  qwordCount.toNat + padding.toNat * 2 ^ 16 + pce.code * 2 ^ 26 + id.code * 2 ^ 28 + irq.toNat * 2 ^ 31
    + address.toNat * 2 ^ 32

/-- The word of a command header `{cmd, num, immediate}` (spec/30_encoding.md R54). -/
def encodeHeader (immediate num cmd : Nat) : Nat := immediate + num * 2 ^ 16 + cmd * 2 ^ 24

/-- The `immediate` of an `Unpack` header: `address`, then `zero_extension` in bit 14 and `add_tops`
in bit 15 (spec/30_encoding.md R59, R66). -/
def unpackImmediate (address : BitVec 10) (zeroExtension addTops : Bool) : Nat :=
  address.toNat + zeroExtension.toNat * 2 ^ 14 + addTops.toNat * 2 ^ 15

/-- The word of a well-formed instruction, 32 bits for a command header and 64 for a descriptor, with
every ignored bit 0 (spec/30_encoding.md R66). A count of 256 units, or of 2048 `Mpg` bytes, is
written `num = 0` (R55, R58). -/
def encodeWord : Instr → Nat
  | .nop => encodeHeader 0 0 0x00
  | .stcycl cl wl => encodeHeader (cl.toNat + wl.toNat * 256) 0 0x01
  | .stmod mode => encodeHeader mode.toNat 0 0x05
  | .flush => encodeHeader 0 0 0x11
  | .mscnt => encodeHeader 0 0 0x17
  | .strow => encodeHeader 0 0 0x30
  | .mpg address num => encodeHeader (address.toNat / 8) (num.toNat / 8 % 256) 0x4A
  | .unpackS32 a z t n => encodeHeader (unpackImmediate a z t) (n % 256) 0x60
  | .unpackV2x16 a z t n => encodeHeader (unpackImmediate a z t) (n % 256) 0x65
  | .unpackV4x32 a z t n => encodeHeader (unpackImmediate a z t) (n % 256) 0x6C
  | .unpackV4x16 a z t n => encodeHeader (unpackImmediate a z t) (n % 256) 0x6D
  | .unpackV4x8 a z t n => encodeHeader (unpackImmediate a z t) (n % 256) 0x6E
  | .tagRefe q p c i a => encodeDescriptor .refe q p c i a
  | .tagCnt q p c i a => encodeDescriptor .cnt q p c i a
  | .tagNext q p c i a => encodeDescriptor .next q p c i a
  | .tagRef q p c i a => encodeDescriptor .ref q p c i a
  | .tagRefs q p c i a => encodeDescriptor .refs q p c i a
  | .tagCall q p c i a => encodeDescriptor .call q p c i a
  | .tagRet q p c i a => encodeDescriptor .ret q p c i a
  | .tagEnd q p c i a => encodeDescriptor .end_ q p c i a

/-- The bytes of an instruction, in the source's order (spec/20_memory.md R33). -/
def encode (i : Instr) : List Byte := leBytes i.format.size (encodeWord i)

/-- The instruction the decoder reads from the word `w` of a row of spec/opcode_table.json that has
`nbits` bits: the table's 32-bit rows are `VIFCODE` headers, its 64-bit rows `DMATAG` descriptors,
each stored little-endian. -/
def decodeTableWord (nbits w : Nat) : Option Instr :=
  match nbits with
  | 32 => (decode .vifcode (leBytes 4 w)).toOption.map Prod.fst
  | 64 => (decode .dmatag (leBytes 8 w)).toOption.map Prod.fst
  | _ => none

end Sys2Proof
end

