-- ==== Sys2Proof/Config.lean ====
section
/-! DEFINITION. What is fixed for every engine, and the one value the spec leaves free. -/

namespace Sys2Proof

/-- The length of the longest command, a `VIFCODE` header and the longest payload
(`Unpack_V4_32` with `num = 0`): `4 + 16*256` bytes (spec/30_encoding.md R65). -/
def Config.longestCommand : Nat := 4100

/-- The length of the longest tag region, `8 + 16*0xFFFF` bytes (spec/30_encoding.md R53). -/
def Config.longestTag : Nat := 1048568

/-- FREE VALUE (notes/assumptions/5.md). The byte the engine reads at position `a` when another agent has changed the
source during the request: 'any value' (spec/93_implementation_defined.md U8,
spec/70_reset_and_hazards.md R154). `epoch` counts the accepted requests, so each byte read after a
change is a value of its own. It has no body: nothing can be proved of it. -/
opaque Config.changedByte : (epoch a : Nat) → Byte

end Sys2Proof
end

