-- ==== Sys2Proof/Machine/State.lean ====
section
/-! DEFINITION. The decoded records, the machine's state, why a step can stop, and the state after
reset. The registers are those of spec/10_state.md section 4, each under its own name; beside them
stand the request being served and what the outside world drives (spec/10_state.md R16, R17). -/

namespace Sys2Proof.Machine

/-! ## Decoded records -/

/-- A Descriptor record: six fields, `padding` among them (spec/40_tag_descriptor.md R67,
spec/90_conflicts.md C2). -/
structure Descriptor where
  qwordCount : BitVec 16
  padding : BitVec 10
  priorityControl : PriorityControl
  id : TagId
  irq : Bool
  address : Word
  deriving DecidableEq, Repr

/-- A Command record: twelve variants, each with exactly the fields of spec/41_vif_commands.md R83. -/
inductive Command where
  | nop
  | stcycl (cl wl : BitVec 8)
  | stmod (mode : BitVec 2)
  | flush
  | mscnt
  | strow (r0 r1 r2 r3 : Word)
  | mpg (address : BitVec 19) (num : BitVec 12) (data : List Byte)
  | unpackS32 (address : BitVec 10) (zeroExtension addTops : Bool) (data : List Word)
  | unpackV2x16 (address : BitVec 10) (zeroExtension addTops : Bool) (data : List Half)
  | unpackV4x32 (address : BitVec 10) (zeroExtension addTops : Bool) (data : List Word)
  | unpackV4x16 (address : BitVec 10) (zeroExtension addTops : Bool) (data : List Half)
  | unpackV4x8 (address : BitVec 10) (zeroExtension addTops : Bool) (data : List Byte)
  deriving DecidableEq, Repr

/-- A Tag record (spec/42_tag.md R101). The commands are in the order of their positions. -/
structure Tag where
  descriptor : Descriptor
  commands : List Command
  deriving DecidableEq, Repr

/-- What an `Ok` response carries, by the request's type (spec/10_state.md section 2, R19). A Packet
is its tags only (spec/43_packet.md R109). -/
inductive Entity where
  | descriptor (d : Descriptor)
  | command (c : Command)
  | tag (t : Tag)
  | packet (tags : List Tag)
  deriving DecidableEq, Repr

/-! ## Errors -/

/-- The component an error is attributed to (spec/60_exceptions.md R136). `tag` issues no read, so it
is in no error record. -/
inductive Layer where
  | descriptor
  | command
  | tag
  | packet
  deriving DecidableEq, Repr

/-- An error record (spec/60_exceptions.md R135): the kind with its `offset` and `layer`, and the
opcode byte where the kind has one. -/
inductive DecodeError where
  | unexpectedEnd (offset : Nat) (layer : Layer)
  | unknownOpcode (byte : Byte) (offset : Nat) (layer : Layer)
  deriving DecidableEq, Repr

/-! ## The byte source and the request -/

/-- The bytes of a source, as (position, byte) pairs in one canonical form (`Memory.wf`). A position
that is not listed holds `0x00`, which is only this list's way of writing that byte: a source has all
of its `L` bytes (spec/20_memory.md R32). -/
abbrev Memory := List Host.Cell

/-- A request `REQ = (op, SRC, L, p0, n)` (spec/10_state.md R17). -/
structure Request where
  /-- The 3-bit request code. -/
  op : BitVec 3
  /-- `SRC`. -/
  src : Memory
  /-- `L`, the number of bytes of `SRC`. -/
  len : Nat
  /-- The position of the first byte to read. -/
  p0 : Nat
  /-- The window size of external framing, in bytes. -/
  n : Nat
  deriving DecidableEq, Repr

/-! ## The state -/

/-- The sub-phases of `BUSY` (spec/44_sequencer.md section 1). -/
inductive SubPhase where
  | desc1
  | cmd1
  | frame
  | ploop
  | tdesc
  | tloop
  | pad
  deriving DecidableEq, Repr

/-- `PHASE` (spec/10_state.md R26). -/
inductive Phase where
  | idle
  | busy (sub : SubPhase)
  | done
  | error
  deriving DecidableEq, Repr

/-- The state of one engine with what its requester and its source drive. `none` in a register is
the spec's own value of it, 'no value' (spec/10_state.md R28): notes/assumptions/1.md. -/
structure State where
  /-- `PHASE`. -/
  phase : Phase
  /-- `OP`, the accepted request code. -/
  op : Option (BitVec 3)
  /-- `POS`, the cursor: the block's program counter (R21). -/
  pos : Option Nat
  /-- `LIM`, the current read limit (R22). -/
  lim : Option Nat
  /-- `LIMSAVE`, the limits saved by `WithLimit`, innermost first (R22). -/
  limSave : List Nat
  /-- `WIN_END` (R23). -/
  winEnd : Option Nat
  /-- `TAG_START` (R24). -/
  tagStart : Option Nat
  /-- `TAG_END` (R24). -/
  tagEnd : Option Nat
  /-- `DESC`, the descriptor of the current tag (R25). -/
  desc : Option Descriptor
  /-- `CMDS`, the commands decoded so far in the current tag (R25). -/
  cmds : List Command
  /-- `TAGS`, the tags decoded so far in the current packet (R25). -/
  tags : List Tag
  /-- `RESULT`, the `value` and `end` of an `Ok` response (R19). -/
  result : Option (Entity × Nat)
  /-- `ERR`, the `e` of an `Err` response (R19). -/
  err : Option DecodeError
  /-- The arguments of the accepted request: the source the engine reads and `n` (R17, R31). -/
  req : Option Request
  /-- INPUT. The requests the requester has written and the engine has not taken yet, first written
  first (R26, spec/70_reset_and_hazards.md R155). -/
  requests : List Request
  /-- INPUT. Reset is asserted (spec/70_reset_and_hazards.md R150). -/
  resetLine : Bool
  /-- INPUT. Another agent has changed the source since the request was accepted
  (spec/70_reset_and_hazards.md R154). -/
  sourceChanged : Bool
  /-- The MODEL's own field: how many requests have been accepted, read by the free value
  `Config.changedByte` and by nothing else (notes/assumptions/5.md). -/
  changeEpoch : Nat
  deriving DecidableEq, Repr

/-! ## Why a step stops -/

/-- The registers that can hold no value (spec/10_state.md section 4), and the request. -/
inductive RegName where
  | op
  | pos
  | lim
  | winEnd
  | tagStart
  | tagEnd
  | desc
  | request
  deriving DecidableEq, Repr

/-- The reasons a step can fault. The block's own two errors are not among them: they are decode
errors, which the machine takes and goes on from (`State.raise`). None of these is reached from a
state with `State.Inv` (Sys2Proof/Safety.lean). -/
inductive Fault where
  /-- A register was read that holds no value: 'A model that reads one has a bug and should fault,
  never return a value' (spec/10_state.md R28). Raised by `need`. Safe: the model stops. -/
  | noValue (r : RegName)
  /-- The meaning of an instruction was asked for in a phase in which the engine decodes no such item
  (spec/44_sequencer.md R122, R123, R126, R127). Raised by `decodedCommand` and
  `decodedDescriptor`. Safe: the model stops. -/
  | wrongPhase
  /-- A packet phase was entered by a request that is no packet request (spec/44_sequencer.md R121,
  R124). Raised by `stepFrame`. Safe: the model stops. -/
  | wrongOp
  /-- `LIMSAVE` was popped while empty (spec/44_sequencer.md R133). Raised by `popLimit`. Safe: the
  model stops. -/
  | limSaveEmpty
  deriving DecidableEq, Repr

/-- The reasons the model can refuse an instruction. -/
inductive Refusal where
  /-- An instruction without a meaning, refused in `exec`'s arm. No arm answers it. Safe. -/
  | notModelled (mnemonic : String)
  deriving DecidableEq, Repr

/-- The state right after reset (spec/70_reset_and_hazards.md R150, R151): `IDLE`, the lists empty,
every other register without a value, no request waiting. -/
def State.reset : State where
  phase := .idle
  op := none
  pos := none
  lim := none
  limSave := []
  winEnd := none
  tagStart := none
  tagEnd := none
  desc := none
  cmds := []
  tags := []
  result := none
  err := none
  req := none
  requests := []
  resetLine := false
  sourceChanged := false
  changeEpoch := 0

end Sys2Proof.Machine
end

