-- ==== Sys2Proof/Machine/Memory.lean ====
section
/-! DEFINITION. The byte source as data: one address space, byte-addressed, of `L` bytes
(spec/10_state.md R31, spec/20_memory.md R32). The engine only reads it (R38, R45); `Memory.write`
and `Memory.ofBytes` are how a requester lays a source out. -/

namespace Sys2Proof.Machine

/-- The canonical form: positions strictly rising, no listed byte equal to what an unlisted position
holds. Equal contents are then equal lists. -/
abbrev Memory.wf (m : Memory) : Prop := m.Pairwise (fun a b => a.1 < b.1) ∧ ∀ c ∈ m, c.2 ≠ 0

/-- What a position that is not listed holds: the one convention of the list (notes/assumptions/4.md). -/
def Memory.unlisted : Byte := 0

/-- The byte at a position. -/
def Memory.byteAt : Memory → Nat → Byte
  | [], _ => Memory.unlisted
  | (x, v) :: rest, a => if a = x then v else Memory.byteAt rest a

/-- The source with the byte at `a` set, in canonical form again. -/
def Memory.write : Memory → Nat → Byte → Memory
  | [], a, b => if b = Memory.unlisted then [] else [(a, b)]
  | (x, v) :: rest, a, b =>
    if a < x then (if b = Memory.unlisted then (x, v) :: rest else (a, b) :: (x, v) :: rest)
    else if a = x then (if b = Memory.unlisted then rest else (a, b) :: rest)
    else (x, v) :: Memory.write rest a b

/-- The source with the bytes `bs` at `a`, `a+1`, ... -/
def Memory.writeAll (m : Memory) : Nat → List Byte → Memory
  | _, [] => m
  | a, b :: bs => Memory.writeAll (m.write a b) (a + 1) bs

/-- The source that holds just the bytes `bs`, from position 0. -/
def Memory.ofBytes (bs : List Byte) : Memory := Memory.writeAll [] 0 bs

/-- A request's source is a finite sequence of `L` bytes (spec/20_memory.md R32): in canonical form,
with nothing listed at or beyond `L`. -/
abbrev Request.wf (r : Request) : Prop := r.src.wf ∧ ∀ c ∈ r.src, c.1 < r.len

/-- The request for a source given as a list of bytes. -/
def Request.ofBytes (op : BitVec 3) (bs : List Byte) (p0 n : Nat) : Request :=
  { op := op, src := Memory.ofBytes bs, len := bs.length, p0 := p0, n := n }

end Sys2Proof.Machine
end

