-- ==== Sys2Proof/Machine/Ops.lean ====
section
/-! DEFINITION. The shared operations over the registers and the source: reading, the read limit,
delivering a decoded item, raising an error, accepting a request and reset. -/

namespace Sys2Proof.Machine

/-- What a step answers. -/
abbrev Result := Host.Outcome State Fault Refusal

/-- Go on with the value of a register; a register that holds no value is never read
(spec/10_state.md R28). -/
def need {α : Type} (r : RegName) (v : Option α) (k : α → Result) : Result :=
  match v with
  | some a => k a
  | none => .fault (.noValue r)

/-! ## Reading the source -/

/-- The source the engine reads: that of the accepted request. With no request accepted there is none,
and `LIM` then has no value, so that no read passes (spec/70_reset_and_hazards.md R151). -/
def State.source (s : State) : Memory :=
  match s.req with
  | some r => r.src
  | none => []

/-- The byte `SRC[a]`. After a change of the source by another agent it is any value
(spec/93_implementation_defined.md U8; notes/assumptions/5.md). -/
def State.srcByte (s : State) (a : Nat) : Byte :=
  if s.sourceChanged then Config.changedByte s.changeEpoch a else s.source.byteAt a

/-- The bytes `SRC[a], ..., SRC[a+k-1]`. -/
def State.srcBytes (s : State) (a k : Nat) : List Byte := (List.range k).map fun i => s.srcByte (a + i)

/-- The value of `MemRead(a, k)`, an unsigned little-endian number (spec/00_scope.md R11); whether the
bytes fit below `LIM` is checked where the read is made. -/
def State.memRead (s : State) (a k : Nat) : Nat := leNat (s.srcBytes a k)

/-- The units of a payload: `[MemRead(q + i*u, u) for i = 0 .. count-1]`, raw unsigned values
(spec/41_vif_commands.md R84, R86). `w` is the unit's width in bits, `u` in bytes. -/
def State.units (s : State) (w q count u : Nat) : List (BitVec w) :=
  (List.range count).map fun i => BitVec.ofNat w (s.memRead (q + i * u) u)

/-! ## Taking an error -/

/-- RAISING AN ERROR, the block's only trap: `ERR` gets the record, `RESULT` keeps no value, `LIMSAVE`
is emptied and `PHASE` becomes `ERROR`; the other registers are left as they are, and the step's own
writes do not happen (spec/44_sequencer.md R129, spec/60_exceptions.md R140). There is no return into
the request: the engine waits in `ERROR` and the next request is accepted as from `IDLE`
(spec/60_exceptions.md R142), by `State.accept`. -/
def State.raise (s : State) (e : DecodeError) : State :=
  { s with err := some e, result := none, limSave := [], phase := .error }

/-! ## The read limit -/

/-- The entry of `WithLimit(newlim)` where `LIM` is `l` (spec/10_state.md R22, spec/00_scope.md R15). -/
def State.pushLimit (s : State) (l newlim : Nat) : State :=
  { s with limSave := l :: s.limSave, lim := some (min l newlim) }

/-- The exit of `WithLimit`: the limit saved last is in force again (spec/10_state.md R22). -/
def popLimit (s : State) (k : State → Result) : Result :=
  match s.limSave with
  | l :: rest => k { s with lim := some l, limSave := rest }
  | [] => .fault .limSaveEmpty

/-! ## Delivering what was decoded -/

/-- The request's `Ok` response (spec/44_sequencer.md R122, R123, R125, R127). -/
def State.finish (s : State) (v : Entity) (pos : Nat) : State :=
  { s with result := some (v, pos), phase := .done }

/-- A command decoded up to `pos` is the response of a `CMD` request (spec/44_sequencer.md R123), or
one more command of the current tag (R127). -/
def decodedCommand (c : Command) (pos : Nat) (s : State) : Result :=
  match s.phase with
  | .busy .cmd1 => .next ({ s with pos := some pos }.finish (.command c) pos)
  | .busy .tloop => .next { s with pos := some pos, cmds := s.cmds ++ [c] }
  | _ => .fault .wrongPhase

/-- A descriptor decoded from the 8 bytes at `POS` is the response of a `DESC` request
(spec/44_sequencer.md R122), or opens a tag region (R126). -/
def decodedDescriptor (d : Descriptor) (s : State) : Result :=
  need .pos s.pos fun p =>
    match s.phase with
    | .busy .desc1 => .next ({ s with pos := some (p + 8) }.finish (.descriptor d) (p + 8))
    | .busy .tdesc =>
      need .lim s.lim fun l =>
        let tagEnd := p + 8 + 16 * d.qwordCount.toNat
        .next ({ s with
          tagStart := some p, desc := some d, tagEnd := some tagEnd, pos := some (p + 8), cmds := [],
          phase := .busy .tloop }.pushLimit l tagEnd)
    | _ => .fault .wrongPhase

/-! ## Requests and reset -/

/-- Whether a request is accepted: `op <= 4` and `p0 <= L` (spec/10_state.md R18,
spec/44_sequencer.md R121). -/
abbrev Request.acceptable (r : Request) : Prop := r.op.toNat ≤ 4 ∧ r.p0 ≤ r.len

/-- The phase in which a request begins (spec/44_sequencer.md R121): `DESC` = 0, `CMD` = 1, `TAG` = 2,
`PKT_EXT` = 3, `PKT_SELF` = 4 (spec/10_state.md section 2). -/
def startPhase (op : BitVec 3) : SubPhase :=
  match op.toNat with
  | 0 => .desc1
  | 1 => .cmd1
  | 2 => .tdesc
  | _ => .frame

/-- Accepting a request (spec/44_sequencer.md R121): every register is written or loses its value, so
that nothing carries over from an earlier request (spec/10_state.md R28,
spec/70_reset_and_hazards.md R152). -/
def State.accept (s : State) (r : Request) : State :=
  { phase := .busy (startPhase r.op), op := some r.op, pos := some r.p0, lim := some r.len, limSave := []
    winEnd := none, tagStart := none, tagEnd := none, desc := none, cmds := [], tags := []
    result := none, err := none, req := some r
    requests := s.requests, resetLine := s.resetLine, sourceChanged := false, changeEpoch := s.changeEpoch + 1 }

/-- Reset asserted at any time (spec/70_reset_and_hazards.md R150): every register as at power-up, a
request in progress abandoned without a response. The requests still waiting are the requester's and
wait on (notes/assumptions/7.md). -/
def State.assertReset (s : State) : State :=
  { State.reset with requests := s.requests, changeEpoch := s.changeEpoch }

end Sys2Proof.Machine
end

