-- ==== Sys2Proof/Machine/Operands.lean ====
section
/-! DEFINITION. The operand forms of the instructions: no payload, a payload of a given length, the
five fields of a tag. Which header bits are which operand is in Sys2Proof/Decode.lean
(spec/30_encoding.md R55 to R59). -/

namespace Sys2Proof.Machine

/-- A command without a payload: it ends 4 bytes after its header's first byte
(spec/41_vif_commands.md section 2). -/
def headerOnly (c : Command) (s : State) : Result :=
  need .pos s.pos fun p => decodedCommand c (p + 4) s

/-- A command with a payload of `k` bytes right after its header: the whole payload is checked at once
against `LIM`, and a payload that does not fit fails at its first byte `q` before any unit is taken
(`Units` of spec/41_vif_commands.md R84, spec/20_memory.md R36). `c q` is the record. -/
def withPayload (k : Nat) (c : Nat → Command) (s : State) : Result :=
  need .pos s.pos fun p =>
  need .lim s.lim fun l =>
    if p + 4 + k ≤ l then decodedCommand (c (p + 4)) (p + 4 + k) s
    else .next (s.raise (.unexpectedEnd (p + 4) .command))

/-- The `i`-th 32-bit word of the payload at `q` (spec/41_vif_commands.md R93). -/
def State.payloadWord (s : State) (q i : Nat) : Word := BitVec.ofNat 32 (s.memRead (q + 4 * i) 4)

end Sys2Proof.Machine
end

