-- ==== Sys2Proof/Machine/Control.lean ====
section
/-! DEFINITION. The commands without a payload: NOP, STCYCL, STMOD, FLUSH, MSCNT
(spec/41_vif_commands.md section 2). A decoded command is a record, never executed: none of them
waits, flushes, starts a microprogram or changes how a later command is decoded (R87). -/

namespace Sys2Proof.Machine

/-- NOP (spec/41_vif_commands.md R88). -/
def execNop (s : State) : Result := headerOnly .nop s

/-- STCYCL (spec/41_vif_commands.md R89). -/
def execStcycl (cl wl : BitVec 8) (s : State) : Result := headerOnly (.stcycl cl wl) s

/-- STMOD (spec/41_vif_commands.md R90). -/
def execStmod (mode : BitVec 2) (s : State) : Result := headerOnly (.stmod mode) s

/-- FLUSH (spec/41_vif_commands.md R91). -/
def execFlush (s : State) : Result := headerOnly .flush s

/-- MSCNT (spec/41_vif_commands.md R92). -/
def execMscnt (s : State) : Result := headerOnly .mscnt s

end Sys2Proof.Machine
end

