-- ==== Sys2Proof/Machine/Flags.lean ====
section
/-! DEFINITION. What is seen of the engine's status. The block has no condition flags, no predicates and
no status register (spec/10_state.md R29, R30): its only status is `PHASE`, with the response. The
chain class of a tag is the one condition it computes (spec/43_packet.md R114). -/

namespace Sys2Proof.Machine

/-- What follows a tag in a packet (spec/43_packet.md R114). -/
inductive ChainClass where
  | terminate
  | continue_
  deriving DecidableEq, Repr

/-- `Class(id)` (spec/43_packet.md R114, spec/40_tag_descriptor.md R74 to R81). -/
def chainClass : TagId → ChainClass
  | .refe => .terminate
  | .cnt => .continue_
  | .next => .continue_
  | .ref => .continue_
  | .refs => .continue_
  | .call => .continue_
  | .ret => .terminate
  | .end_ => .terminate

/-- The numeric code of an error kind; 0 is no error (spec/60_exceptions.md R134). -/
def errorCode : Option DecodeError → Nat
  | none => 0
  | some (.unexpectedEnd _ _) => 1
  | some (.unknownOpcode _ _ _) => 2

/-- The numeric code of a layer (spec/60_exceptions.md R136). -/
def Layer.code : Layer → Nat
  | .descriptor => 1
  | .command => 2
  | .tag => 3
  | .packet => 4

/-- A response: exactly one of `Ok(value, end)` and `Err(e)` (spec/10_state.md R19). -/
inductive Response where
  | ok (value : Entity) (pos : Nat)
  | err (e : DecodeError)
  deriving DecidableEq, Repr

/-- The response the requester can read: in `DONE` and `ERROR` only (spec/44_sequencer.md R130,
spec/70_reset_and_hazards.md R156). -/
def State.response (s : State) : Option Response :=
  match s.phase with
  | .done => s.result.map fun v => .ok v.1 v.2
  | .error => s.err.map .err
  | _ => none

/-- The four phases as the requester reads them (spec/10_state.md R26). DESIGN CHOICE: the sub-phase of
`BUSY` is not among what it reads (notes/assumptions/15.md). -/
inductive Status where
  | idle
  | busy
  | done
  | error
  deriving DecidableEq, Repr

/-- The status the requester can read: `PHASE` (spec/10_state.md R26). DESIGN CHOICE: without the
sub-phase of `BUSY`, which R26 and R27 neither show nor hide (notes/assumptions/15.md). -/
def State.status (s : State) : Status :=
  match s.phase with
  | .idle => .idle
  | .busy _ => .busy
  | .done => .done
  | .error => .error

/-- All the requester can observe: `PHASE`, as `State.status` shows it, and the response, no other
register (spec/10_state.md R26, R27). -/
def State.observe (s : State) : Status × Option Response := (s.status, s.response)

end Sys2Proof.Machine
end

