-- ==== Sys2Proof/Machine/DmaTag.lean ====
section
/-! DEFINITION. The eight kinds of tag descriptor (spec/40_tag_descriptor.md R67, R68, R74 to R81). A
descriptor is decoded and carried: `address` is never read at (R71), `irq` raises nothing (R72),
`priority_control` has no effect (R73). Its kind decides what follows the tag in a packet, when the
tag's region ends (`chainClass`, `stepRegionEnd`). -/

namespace Sys2Proof.Machine

/-- TAG Refe, chain class `Terminate` (spec/40_tag_descriptor.md R74). -/
def execTagRefe (qwordCount : BitVec 16) (padding : BitVec 10) (pce : PriorityControl) (irq : Bool) (address : Word)
    (s : State) : Result :=
  decodedDescriptor ⟨qwordCount, padding, pce, .refe, irq, address⟩ s

/-- TAG Cnt, chain class `Continue` (spec/40_tag_descriptor.md R75). -/
def execTagCnt (qwordCount : BitVec 16) (padding : BitVec 10) (pce : PriorityControl) (irq : Bool) (address : Word)
    (s : State) : Result :=
  decodedDescriptor ⟨qwordCount, padding, pce, .cnt, irq, address⟩ s

/-- TAG Next, chain class `Continue` (spec/40_tag_descriptor.md R76). -/
def execTagNext (qwordCount : BitVec 16) (padding : BitVec 10) (pce : PriorityControl) (irq : Bool) (address : Word)
    (s : State) : Result :=
  decodedDescriptor ⟨qwordCount, padding, pce, .next, irq, address⟩ s

/-- TAG Ref, chain class `Continue` (spec/40_tag_descriptor.md R77). -/
def execTagRef (qwordCount : BitVec 16) (padding : BitVec 10) (pce : PriorityControl) (irq : Bool) (address : Word)
    (s : State) : Result :=
  decodedDescriptor ⟨qwordCount, padding, pce, .ref, irq, address⟩ s

/-- TAG Refs, chain class `Continue` (spec/40_tag_descriptor.md R78). -/
def execTagRefs (qwordCount : BitVec 16) (padding : BitVec 10) (pce : PriorityControl) (irq : Bool) (address : Word)
    (s : State) : Result :=
  decodedDescriptor ⟨qwordCount, padding, pce, .refs, irq, address⟩ s

/-- TAG Call, chain class `Continue` (spec/40_tag_descriptor.md R79). -/
def execTagCall (qwordCount : BitVec 16) (padding : BitVec 10) (pce : PriorityControl) (irq : Bool) (address : Word)
    (s : State) : Result :=
  decodedDescriptor ⟨qwordCount, padding, pce, .call, irq, address⟩ s

/-- TAG Ret, chain class `Terminate` (spec/40_tag_descriptor.md R80). -/
def execTagRet (qwordCount : BitVec 16) (padding : BitVec 10) (pce : PriorityControl) (irq : Bool) (address : Word)
    (s : State) : Result :=
  decodedDescriptor ⟨qwordCount, padding, pce, .ret, irq, address⟩ s

/-- TAG End, chain class `Terminate` (spec/40_tag_descriptor.md R81). -/
def execTagEnd (qwordCount : BitVec 16) (padding : BitVec 10) (pce : PriorityControl) (irq : Bool) (address : Word)
    (s : State) : Result :=
  decodedDescriptor ⟨qwordCount, padding, pce, .end_, irq, address⟩ s

end Sys2Proof.Machine
end

