-- ==== Sys2Proof/Machine/Transfer.lean ====
section
/-! DEFINITION. STROW, with a fixed payload of four words, and MPG, with a payload of `Mpg.num` bytes
(spec/41_vif_commands.md R93, R94). -/

namespace Sys2Proof.Machine

/-- STROW: 16 payload bytes whatever `num` says (spec/41_vif_commands.md R93). -/
def execStrow (s : State) : Result :=
  withPayload 16 (fun q => .strow (s.payloadWord q 0) (s.payloadWord q 1) (s.payloadWord q 2) (s.payloadWord q 3)) s

/-- MPG: `Mpg.num` payload bytes (spec/41_vif_commands.md R94). -/
def execMpg (address : BitVec 19) (num : BitVec 12) (s : State) : Result :=
  withPayload num.toNat (fun q => .mpg address num (s.units 8 q num.toNat 1)) s

end Sys2Proof.Machine
end

