-- ==== Sys2Proof/Machine/Unpack.lean ====
section
/-! DEFINITION. The five UNPACK commands (spec/41_vif_commands.md R95 to R99). They differ in the unit and
in how many units one count of `num_eff` stands for (spec/30_encoding.md R61); units are kept raw (R86). -/

namespace Sys2Proof.Machine

/-- UNPACK_S_32: `num_eff` 32-bit words (spec/41_vif_commands.md R95). -/
def execUnpackS32 (address : BitVec 10) (zeroExtension addTops : Bool) (numEff : Nat) (s : State) : Result :=
  withPayload (4 * numEff) (fun q => .unpackS32 address zeroExtension addTops (s.units 32 q numEff 4)) s

/-- UNPACK_V2_16: `num_eff*2` 16-bit words (spec/41_vif_commands.md R96). -/
def execUnpackV2x16 (address : BitVec 10) (zeroExtension addTops : Bool) (numEff : Nat) (s : State) : Result :=
  withPayload (4 * numEff) (fun q => .unpackV2x16 address zeroExtension addTops (s.units 16 q (numEff * 2) 2)) s

/-- UNPACK_V4_32: `num_eff*4` 32-bit words (spec/41_vif_commands.md R97). -/
def execUnpackV4x32 (address : BitVec 10) (zeroExtension addTops : Bool) (numEff : Nat) (s : State) : Result :=
  withPayload (16 * numEff) (fun q => .unpackV4x32 address zeroExtension addTops (s.units 32 q (numEff * 4) 4)) s

/-- UNPACK_V4_16: `num_eff*4` 16-bit words (spec/41_vif_commands.md R98). -/
def execUnpackV4x16 (address : BitVec 10) (zeroExtension addTops : Bool) (numEff : Nat) (s : State) : Result :=
  withPayload (8 * numEff) (fun q => .unpackV4x16 address zeroExtension addTops (s.units 16 q (numEff * 4) 2)) s

/-- UNPACK_V4_8: `num_eff*4` bytes (spec/41_vif_commands.md R99). -/
def execUnpackV4x8 (address : BitVec 10) (zeroExtension addTops : Bool) (numEff : Nat) (s : State) : Result :=
  withPayload (4 * numEff) (fun q => .unpackV4x8 address zeroExtension addTops (s.units 8 q (numEff * 4) 1)) s

end Sys2Proof.Machine
end

