-- ==== Sys2Proof/Machine/Dispatch.lean ====
section
/-! DEFINITION. One arm per instruction, each one direct call of its meaning. -/

namespace Sys2Proof.Machine

def exec (i : Instr) (s : State) : Host.Outcome State Fault Refusal :=
  match i with
  | .nop => Sys2Proof.Machine.execNop s
  | .stcycl cl wl => Sys2Proof.Machine.execStcycl cl wl s
  | .stmod mode => Sys2Proof.Machine.execStmod mode s
  | .flush => Sys2Proof.Machine.execFlush s
  | .mscnt => Sys2Proof.Machine.execMscnt s
  | .strow => Sys2Proof.Machine.execStrow s
  | .mpg address num => Sys2Proof.Machine.execMpg address num s
  | .unpackS32 a z t n => Sys2Proof.Machine.execUnpackS32 a z t n s
  | .unpackV2x16 a z t n => Sys2Proof.Machine.execUnpackV2x16 a z t n s
  | .unpackV4x32 a z t n => Sys2Proof.Machine.execUnpackV4x32 a z t n s
  | .unpackV4x16 a z t n => Sys2Proof.Machine.execUnpackV4x16 a z t n s
  | .unpackV4x8 a z t n => Sys2Proof.Machine.execUnpackV4x8 a z t n s
  | .tagRefe q p c irq a => Sys2Proof.Machine.execTagRefe q p c irq a s
  | .tagCnt q p c irq a => Sys2Proof.Machine.execTagCnt q p c irq a s
  | .tagNext q p c irq a => Sys2Proof.Machine.execTagNext q p c irq a s
  | .tagRef q p c irq a => Sys2Proof.Machine.execTagRef q p c irq a s
  | .tagRefs q p c irq a => Sys2Proof.Machine.execTagRefs q p c irq a s
  | .tagCall q p c irq a => Sys2Proof.Machine.execTagCall q p c irq a s
  | .tagRet q p c irq a => Sys2Proof.Machine.execTagRet q p c irq a s
  | .tagEnd q p c irq a => Sys2Proof.Machine.execTagEnd q p c irq a s

end Sys2Proof.Machine
end

