-- ==== Sys2Proof/Machine/Sequencer.lean ====
section
/-! DEFINITION. The request sequencer (spec/44_sequencer.md): what one step does in each phase. The
meaning of a fetched instruction is a parameter `run`, which Machine/Step.lean makes `exec`. -/

namespace Sys2Proof.Machine

/-- The error a rejected header raises at its position (spec/41_vif_commands.md R100). -/
def rejectionError (p : Nat) : Rejection → DecodeError
  | .unknownOpcode cmd => .unknownOpcode cmd p .command
  | .short .vifcode => .unexpectedEnd p .command
  | .short .dmatag => .unexpectedEnd p .descriptor

/-- The layer that reads an item of a format (spec/60_exceptions.md R136). -/
def formatLayer : Format → Layer
  | .vifcode => .command
  | .dmatag => .descriptor

/-- FETCH: the header or descriptor at `POS`, read whole or not at all, is decoded and run
(spec/41_vif_commands.md R84, spec/40_tag_descriptor.md R68). The checks are in the order of
spec/41_vif_commands.md R100: the header fits, the opcode is known, then (in the meaning) the payload
fits. -/
def fetch (f : Format) (run : Instr → State → Result) (s : State) : Result :=
  need .pos s.pos fun p =>
  need .lim s.lim fun l =>
    if p + f.size ≤ l then
      match decode f (s.srcBytes p f.size) with
      | .ok (i, _) => run i s
      | .error e => .next (s.raise (rejectionError p e))
    else .next (s.raise (.unexpectedEnd p (formatLayer f)))

/-- The common end of `BUSY.FRAME`: the window `[start, winEnd)` is in force (spec/44_sequencer.md
R124). -/
def openWindow (start winEnd l : Nat) (s : State) : State :=
  { s with pos := some start, winEnd := some winEnd, phase := .busy .ploop }.pushLimit l winEnd

/-- `BUSY.FRAME` (spec/44_sequencer.md R124): external framing reads nothing (spec/43_packet.md R110);
self-describing framing reads its 4-byte `qword_count` in layer `Packet` (R111). -/
def stepFrame (s : State) : Result :=
  need .op s.op fun op =>
  need .pos s.pos fun p =>
  need .lim s.lim fun l =>
    match op.toNat with
    | 3 => need .request s.req fun r => .next (openWindow p (p + r.n) l s)
    | 4 =>
      if p + 4 ≤ l then .next (openWindow (p + 4) (p + 4 + 16 * s.memRead p 4) l s)
      else .next (s.raise (.unexpectedEnd p .packet))
    | _ => .fault .wrongOp

/-- `BUSY.PLOOP` (spec/44_sequencer.md R125): the window boundary check. It reads nothing. -/
def stepWindow (s : State) : Result :=
  need .pos s.pos fun p =>
  need .winEnd s.winEnd fun w =>
    if p < w then .next { s with phase := .busy .tdesc }
    else popLimit s fun s' => .next (s'.finish (.packet s'.tags) p)

/-- The phase after a tag of a packet (spec/44_sequencer.md R127, spec/43_packet.md R114). -/
def afterTag : ChainClass → SubPhase
  | .terminate => .pad
  | .continue_ => .ploop

/-- The exit of `BUSY.TLOOP` (spec/44_sequencer.md R127): the tag is the response of a `TAG` request,
whatever its kind (spec/42_tag.md R108), or one more tag of the packet. -/
def stepRegionEnd (s : State) : Result :=
  need .pos s.pos fun p =>
  need .op s.op fun op =>
  need .desc s.desc fun d =>
  popLimit s fun s' =>
    let t : Tag := ⟨d, s.cmds⟩
    if op.toNat = 2 then .next (s'.finish (.tag t) p)
    else .next { s' with tags := s'.tags ++ [t], phase := .busy (afterTag (chainClass d.id)) }

/-- `BUSY.TLOOP` (spec/44_sequencer.md R127): the region boundary check, then one command. -/
def stepRegion (run : Instr → State → Result) (s : State) : Result :=
  need .pos s.pos fun p =>
  need .tagEnd s.tagEnd fun e =>
    if p < e then fetch .vifcode run s else stepRegionEnd s

/-- `BUSY.PAD` (spec/44_sequencer.md R128): `Skip(WIN_END - POS)` in layer `Packet`. The bytes must be
present and are not examined (spec/00_scope.md R13, spec/43_packet.md R115). -/
def stepPadding (s : State) : Result :=
  need .pos s.pos fun p =>
  need .lim s.lim fun l =>
  need .winEnd s.winEnd fun w =>
    if p + (w - p) ≤ l then .next { s with pos := some (p + (w - p)), phase := .busy .ploop }
    else .next (s.raise (.unexpectedEnd p .packet))

/-- Between requests (`IDLE`, `DONE`, `ERROR`): the first waiting request is accepted
(spec/44_sequencer.md R121, spec/10_state.md R26); one that is not acceptable is turned away with no
effect on any register (spec/10_state.md R18, notes/assumptions/6.md); with none waiting the engine
waits, its registers unchanged (spec/44_sequencer.md R130, spec/60_exceptions.md R149). -/
def stepResting (s : State) : Result :=
  match s.requests with
  | [] => .next s
  | r :: rest =>
    if r.acceptable then .next ({ s with requests := rest }.accept r)
    else .next { s with requests := rest }

/-- ONE STEP, given the meaning of instructions. Reset comes first (spec/70_reset_and_hazards.md R150). -/
def stepWith (run : Instr → State → Result) (s : State) : Result :=
  if s.resetLine then .next s.assertReset
  else
    match s.phase with
    | .idle => stepResting s
    | .done => stepResting s
    | .error => stepResting s
    | .busy .desc1 => fetch .dmatag run s
    | .busy .cmd1 => fetch .vifcode run s
    | .busy .frame => stepFrame s
    | .busy .ploop => stepWindow s
    | .busy .tdesc => fetch .dmatag run s
    | .busy .tloop => stepRegion run s
    | .busy .pad => stepPadding s

/-- The request that lays out one instruction for the engine to run: the word `w` of `nbits` bits at
position 0 with zero bytes after it. A command header is served by a `CMD` request over as many bytes
as the longest command, a descriptor by a `TAG` request over as many as the longest tag region. -/
def tableRequest (nbits w : Nat) : Request :=
  if nbits = 64 then
    { op := 2, src := Memory.ofBytes (leBytes 8 w), len := Config.longestTag, p0 := 0, n := 0 }
  else
    { op := 1, src := Memory.ofBytes (leBytes 4 w), len := Config.longestCommand, p0 := 0, n := 0 }

end Sys2Proof.Machine
end

