-- ==== Sys2Proof/Machine/Step.lean ====
section
/-! DEFINITION. The machine's step, and how one instruction is placed where it fetches. -/

namespace Sys2Proof.Machine

/-- One step of the engine (spec/44_sequencer.md). -/
def step (s : State) : Host.Outcome State Fault Refusal := stepWith exec s

/-- `s` with the instruction of the word `w` (of `nbits` bits, zeros above) as what the next step
fetches: a request over it has just been accepted (notes/assumptions/8.md). -/
def State.withFetchWord (s : State) (nbits w : Nat) : State :=
  { s with resetLine := false }.accept (tableRequest nbits w)

end Sys2Proof.Machine
end

