-- ==== Sys2Proof/Machine/Functions.lean ====
section
/-! DEFINITION. The four functions over a cursor that the spec gives beside the step machine:
`DecodeDescriptor` (spec/40_tag_descriptor.md R68), `DecodeCommand` (spec/41_vif_commands.md R84),
`DecodeTag` (spec/42_tag.md R102) and `DecodePacket` (spec/43_packet.md R113), written from their
pseudocode, and what a request's entry point returns. The step machine does not call them; that the
two agree is spec/44_sequencer.md R131. They read an unchanging source. -/

namespace Sys2Proof.Machine

/-- What a function returns: the record and the cursor after it, or the error it raises. -/
abbrev Decoded (α : Type) := Except DecodeError (α × Nat)

/-- The value of `MemRead(a, k)` over the bytes of a source (spec/00_scope.md R11). -/
def readLE (src : Memory) (a k : Nat) : Nat := leNat ((List.range k).map fun i => src.byteAt (a + i))

/-- `DecodeDescriptor()` (spec/40_tag_descriptor.md R68). -/
def descriptorFn (src : Memory) (lim pos : Nat) : Decoded Descriptor :=
  if pos + 8 > lim then .error (.unexpectedEnd pos .descriptor)
  else
    let w := readLE src pos 8
    .ok ({
      qwordCount := BitVec.ofNat 16 w
      padding := BitVec.ofNat 10 (w / 2 ^ 16)
      priorityControl := priorityControlOf (BitVec.ofNat 2 (w / 2 ^ 26))
      id := tagIdOf (BitVec.ofNat 3 (w / 2 ^ 28))
      irq := w / 2 ^ 31 % 2 = 1
      address := BitVec.ofNat 32 (w / 2 ^ 32) }, pos + 8)

/-- `Units(count, u)`: the whole payload is checked at once (spec/41_vif_commands.md R84); `f` makes
the record of the units. -/
def unitsFn (src : Memory) (lim q w count u : Nat) (f : List (BitVec w) → Command) : Decoded Command :=
  if q + count * u > lim then .error (.unexpectedEnd q .command)
  else .ok (f ((List.range count).map fun i => BitVec.ofNat w (readLE src (q + i * u) u)), q + count * u)

/-- The record `STROW` makes of its four units (spec/41_vif_commands.md R93). -/
def strowOfUnits (ws : List Word) : Command := .strow (ws.getD 0 0) (ws.getD 1 0) (ws.getD 2 0) (ws.getD 3 0)

/-- `DecodeCommand()` (spec/41_vif_commands.md R84). -/
def commandFn (src : Memory) (lim start : Nat) : Decoded Command :=
  if start + 4 > lim then .error (.unexpectedEnd start .command)
  else
    let h := readLE src start 4
    let imm := h % 2 ^ 16
    let num := h / 2 ^ 16 % 2 ^ 8
    let cmd := h / 2 ^ 24 % 2 ^ 8
    let numEff := if num ≠ 0 then num else 256
    let pos := start + 4
    let address := BitVec.ofNat 10 imm
    let zeroExtension : Bool := imm / 2 ^ 14 % 2 = 1
    let addTops : Bool := imm / 2 ^ 15 % 2 = 1
    if cmd = 0x00 then .ok (.nop, pos)
    else if cmd = 0x01 then .ok (.stcycl (BitVec.ofNat 8 imm) (BitVec.ofNat 8 (imm / 2 ^ 8)), pos)
    else if cmd = 0x05 then .ok (.stmod (BitVec.ofNat 2 imm), pos)
    else if cmd = 0x11 then .ok (.flush, pos)
    else if cmd = 0x17 then .ok (.mscnt, pos)
    else if cmd = 0x30 then unitsFn src lim pos 32 4 4 strowOfUnits
    else if cmd = 0x4A then
      let k := if num ≠ 0 then num * 8 else 2048
      unitsFn src lim pos 8 k 1 (.mpg (BitVec.ofNat 19 (imm * 8)) (BitVec.ofNat 12 k))
    else if cmd = 0x60 then unitsFn src lim pos 32 numEff 4 (.unpackS32 address zeroExtension addTops)
    else if cmd = 0x65 then unitsFn src lim pos 16 (numEff * 2) 2 (.unpackV2x16 address zeroExtension addTops)
    else if cmd = 0x6C then unitsFn src lim pos 32 (numEff * 4) 4 (.unpackV4x32 address zeroExtension addTops)
    else if cmd = 0x6D then unitsFn src lim pos 16 (numEff * 4) 2 (.unpackV4x16 address zeroExtension addTops)
    else if cmd = 0x6E then unitsFn src lim pos 8 (numEff * 4) 1 (.unpackV4x8 address zeroExtension addTops)
    else .error (.unknownOpcode (BitVec.ofNat 8 cmd) start .command)

/-- The loop of `DecodeTag()`, `while pos < tag_end` (spec/42_tag.md R102). Each command takes at least
4 bytes, so with `fuel = tag_end - pos` the fuel is spent only where the loop has ended. -/
def commandLoop (src : Memory) (lim tagEnd : Nat) : (fuel pos : Nat) → List Command → Decoded (List Command)
  | 0, pos, cmds => .ok (cmds, pos)
  | fuel + 1, pos, cmds =>
    if pos < tagEnd then
      match commandFn src (min lim tagEnd) pos with
      | .error e => .error e
      | .ok (c, pos') => commandLoop src lim tagEnd fuel pos' (cmds ++ [c])
    else .ok (cmds, pos)

/-- `DecodeTag()` (spec/42_tag.md R102). -/
def tagFn (src : Memory) (lim tagStart : Nat) : Decoded Tag :=
  match descriptorFn src lim tagStart with
  | .error e => .error e
  | .ok (d, pos) =>
    let tagEnd := tagStart + 8 + d.qwordCount.toNat * 16
    match commandLoop src lim tagEnd (tagEnd - pos) pos [] with
    | .error e => .error e
    | .ok (cmds, pos') => .ok (⟨d, cmds⟩, pos')

/-- The loop of `DecodePacket`, `while pos < win_end`, `lim` being the limit with the window in force
(spec/43_packet.md R113). Each tag takes at least 8 bytes, so with `fuel = win_end - pos` the fuel is
spent only where the loop has ended. -/
def tagLoop (src : Memory) (lim winEnd : Nat) : (fuel pos : Nat) → List Tag → Decoded (List Tag)
  | 0, pos, tags => .ok (tags, pos)
  | fuel + 1, pos, tags =>
    if pos < winEnd then
      match tagFn src lim pos with
      | .error e => .error e
      | .ok (t, pos') =>
        if chainClass t.descriptor.id = .terminate then
          if pos' + (winEnd - pos') > lim then .error (.unexpectedEnd pos' .packet)
          else tagLoop src lim winEnd fuel (pos' + (winEnd - pos')) (tags ++ [t])
        else tagLoop src lim winEnd fuel pos' (tags ++ [t])
    else .ok (tags, pos)

/-- `DecodePacket` from its window `[start, winEnd)` (spec/43_packet.md R113). -/
def windowFn (src : Memory) (len start winEnd : Nat) : Decoded (List Tag) :=
  tagLoop src (min len winEnd) winEnd (winEnd - start) start []

/-- `DecodePacket(SelfDescribing)` (spec/43_packet.md R111). -/
def selfPacketFn (src : Memory) (len p0 : Nat) : Decoded (List Tag) :=
  if p0 + 4 > len then .error (.unexpectedEnd p0 .packet)
  else windowFn src len (p0 + 4) (p0 + 4 + readLE src p0 4 * 16)

/-- The response that a function's return value is (spec/10_state.md R19). -/
def toResponse {α : Type} (f : α → Entity) : Decoded α → Response
  | .ok (v, pos) => .ok (f v) pos
  | .error e => .err e

/-- What a request's entry point returns (spec/40_tag_descriptor.md R69, spec/41_vif_commands.md R85,
spec/42_tag.md R108, spec/43_packet.md R120), for the request codes 0 to 4. -/
def requestFn (r : Request) : Response :=
  match r.op.toNat with
  | 0 => toResponse .descriptor (descriptorFn r.src r.len r.p0)
  | 1 => toResponse .command (commandFn r.src r.len r.p0)
  | 2 => toResponse .tag (tagFn r.src r.len r.p0)
  | 3 => toResponse .packet (windowFn r.src r.len r.p0 (r.p0 + r.n))
  | _ => toResponse .packet (selfPacketFn r.src r.len r.p0)

end Sys2Proof.Machine
end

