-- ==== Sys2Proof/Safety.lean ====
section
/-! DEFINITION. What a sound state is, in the terms the statements use: the well-formed records of
spec/41_vif_commands.md R83, spec/42_tag.md R101 and spec/43_packet.md R117, and `State.Inv`, the
invariant of the step machine (spec/44_sequencer.md R132, R133). From a state with `Inv` no step
faults, so every read of a register finds a value (spec/10_state.md R28). -/

namespace Sys2Proof.Machine

/-- The bytes a decoded command took, header and payload (spec/30_encoding.md R65). -/
def Command.size : Command → Nat
  | .nop | .stcycl _ _ | .stmod _ | .flush | .mscnt => 4
  | .strow _ _ _ _ => 20
  | .mpg _ num _ => 4 + num.toNat
  | .unpackS32 _ _ _ data => 4 + 4 * data.length
  | .unpackV2x16 _ _ _ data => 4 + 2 * data.length
  | .unpackV4x32 _ _ _ data => 4 + 4 * data.length
  | .unpackV4x16 _ _ _ data => 4 + 2 * data.length
  | .unpackV4x8 _ _ _ data => 4 + data.length

/-- A Command record whose payload has the length its fields say (spec/41_vif_commands.md R83). -/
def Command.wf : Command → Prop
  | .nop | .stcycl _ _ | .stmod _ | .flush | .mscnt | .strow _ _ _ _ => True
  | .mpg address num data => mpgAddressOk address = true ∧ mpgNumOk num = true ∧ data.length = num.toNat
  | .unpackS32 _ _ _ data => ∃ n, numEffOk n = true ∧ data.length = n
  | .unpackV2x16 _ _ _ data => ∃ n, numEffOk n = true ∧ data.length = n * 2
  | .unpackV4x32 _ _ _ data => ∃ n, numEffOk n = true ∧ data.length = n * 4
  | .unpackV4x16 _ _ _ data => ∃ n, numEffOk n = true ∧ data.length = n * 4
  | .unpackV4x8 _ _ _ data => ∃ n, numEffOk n = true ∧ data.length = n * 4

/-- The bytes of a sequence of commands. -/
def commandsSize (cs : List Command) : Nat := (cs.map Command.size).sum

/-- A Tag record: its commands fill the microcode region exactly (spec/42_tag.md R101, R102). -/
def Tag.wf (t : Tag) : Prop :=
  (∀ c ∈ t.commands, c.wf) ∧ commandsSize t.commands = 16 * t.descriptor.qwordCount.toNat

/-- Every tag lets the chain go on (spec/43_packet.md R114). -/
def chainOpen (tags : List Tag) : Prop := ∀ t ∈ tags, chainClass t.descriptor.id = .continue_

/-- No tag follows a terminating tag (spec/43_packet.md R117). -/
def chainOk (tags : List Tag) : Prop := chainOpen tags.dropLast

/-- A well-formed entity of a response. -/
def Entity.wf : Entity → Prop
  | .descriptor _ => True
  | .command c => c.wf
  | .tag t => t.wf
  | .packet tags => (∀ t ∈ tags, t.wf) ∧ chainOk tags

/-- The request code whose entry point returns an entity of this type (spec/10_state.md section 2). -/
def Entity.ofOp : Entity → BitVec 3 → Prop
  | .descriptor _, op => op.toNat = 0
  | .command _, op => op.toNat = 1
  | .tag _, op => op.toNat = 2
  | .packet _, op => op.toNat = 3 ∨ op.toNat = 4

/-- The two packet requests (spec/43_packet.md R112). -/
def isPacket (op : BitVec 3) : Prop := op.toNat = 3 ∨ op.toNat = 4

/-- Every register but `PHASE` holds no value, the lists are empty (spec/70_reset_and_hazards.md R150). -/
structure State.Cleared (s : State) : Prop where
  op : s.op = none
  pos : s.pos = none
  lim : s.lim = none
  limSave : s.limSave = []
  winEnd : s.winEnd = none
  tagStart : s.tagStart = none
  tagEnd : s.tagEnd = none
  desc : s.desc = none
  cmds : s.cmds = []
  tags : s.tags = []
  result : s.result = none
  err : s.err = none
  req : s.req = none

/-- A packet's window is in force: `LIM = min(L, WIN_END)`, `L` saved (spec/44_sequencer.md R124, R133). -/
structure State.InWindow (s : State) (r : Request) (p l w : Nat) : Prop where
  winEnd : s.winEnd = some w
  packet : isPacket r.op
  limSave : s.limSave = [r.len]
  lim : l = min r.len w
  tags : ∀ t ∈ s.tags, t.wf

/-- The state inside a tag region: the commands decoded so far reach from the descriptor's end to
`POS`, and `LIM` is the least of the limits in force (spec/44_sequencer.md R126, R127, R133). -/
structure State.InRegion (s : State) (r : Request) (p l ts e : Nat) (d : Descriptor) : Prop where
  tagStart : s.tagStart = some ts
  tagEnd : s.tagEnd = some e
  desc : s.desc = some d
  region : e = ts + 8 + 16 * d.qwordCount.toNat
  start : r.p0 ≤ ts
  cmds : ∀ c ∈ s.cmds, c.wf
  pos : p = ts + 8 + commandsSize s.cmds
  limits : (r.op.toNat = 2 ∧ ts = r.p0 ∧ s.limSave = [r.len] ∧ l = min r.len e) ∨
    (isPacket r.op ∧ ∃ w, s.winEnd = some w ∧ s.limSave = [min r.len w, r.len] ∧ l = min (min r.len w) e ∧
      (∀ t ∈ s.tags, t.wf) ∧ chainOpen s.tags)

/-- What holds in each sub-phase of `BUSY`, for the request `r`, `POS = p` and `LIM = l`. -/
def State.SubInv (s : State) (r : Request) (p l : Nat) : SubPhase → Prop
  | .desc1 => r.op.toNat = 0 ∧ s.limSave = [] ∧ l = r.len ∧ p = r.p0
  | .cmd1 => r.op.toNat = 1 ∧ s.limSave = [] ∧ l = r.len ∧ p = r.p0
  | .frame => isPacket r.op ∧ s.limSave = [] ∧ l = r.len ∧ p = r.p0 ∧ s.tags = []
  | .ploop => ∃ w, s.InWindow r p l w ∧ chainOk s.tags ∧ (chainOpen s.tags ∨ p = w) ∧ p ≤ w
  | .tdesc =>
    (r.op.toNat = 2 ∧ s.limSave = [] ∧ l = r.len ∧ p = r.p0) ∨
      (∃ w, s.InWindow r p l w ∧ chainOpen s.tags ∧ p < w)
  | .tloop => ∃ ts e d, s.InRegion r p l ts e d
  | .pad => ∃ w, s.InWindow r p l w ∧ chainOk s.tags ∧ p ≤ w

/-- A request is running: it was acceptable, the cursor lies between its start and the limit, the limit
lies within the source, and no response is held (spec/44_sequencer.md R132). -/
structure State.Busy (s : State) (sub : SubPhase) (r : Request) (p l : Nat) : Prop where
  req : s.req = some r
  wf : r.wf
  acceptable : r.acceptable
  op : s.op = some r.op
  pos : s.pos = some p
  lim : s.lim = some l
  start : r.p0 ≤ p
  within : p ≤ l
  source : l ≤ r.len
  noResult : s.result = none
  noErr : s.err = none
  sub : s.SubInv r p l sub

/-- A response is held: an entity of the request's type, whole and well formed, that ends within the
source (spec/10_state.md R19). -/
structure State.Done (s : State) (r : Request) (v : Entity) (pos : Nat) : Prop where
  req : s.req = some r
  wf : r.wf
  result : s.result = some (v, pos)
  entity : v.wf
  type : v.ofOp r.op
  start : r.p0 ≤ pos
  within : pos ≤ r.len
  noErr : s.err = none
  limSave : s.limSave = []

/-- The position an error record names. -/
def DecodeError.offset : DecodeError → Nat
  | .unexpectedEnd o _ => o
  | .unknownOpcode _ o _ => o

/-- The layer an error record names. -/
def DecodeError.layer : DecodeError → Layer
  | .unexpectedEnd _ l => l
  | .unknownOpcode _ _ l => l

/-- An error is held: an offset between the request's start and the end of the source, and never the
layer `Tag`, which issues no read (spec/60_exceptions.md R135, R136, spec/44_sequencer.md R129). -/
structure State.Failed (s : State) (r : Request) (e : DecodeError) : Prop where
  req : s.req = some r
  wf : r.wf
  err : s.err = some e
  start : r.p0 ≤ e.offset
  within : e.offset ≤ r.len
  layer : e.layer ≠ .tag
  noResult : s.result = none
  limSave : s.limSave = []

/-- THE INVARIANT of the step machine. -/
def State.Inv (s : State) : Prop :=
  (∀ r ∈ s.requests, r.wf) ∧
    match s.phase with
    | .idle => s.Cleared
    | .busy sub => ∃ r p l, s.Busy sub r p l
    | .done => ∃ r v pos, s.Done r v pos
    | .error => ∃ r e, s.Failed r e

/-! ## The words the statements use -/

/-- The engine is between requests (spec/10_state.md R26). -/
def State.Resting (s : State) : Prop := s.phase = .idle ∨ s.phase = .done ∨ s.phase = .error

/-- A request is running (spec/10_state.md R26). -/
def State.Running (s : State) : Prop := ∃ sub, s.phase = .busy sub

/-- A command is the next item, its header at `p` and the limit `l` in force: in `BUSY.CMD1`, or in
`BUSY.TLOOP` before the end of the region (spec/44_sequencer.md R123, R127). -/
def State.AtCommand (s : State) (p l : Nat) : Prop :=
  s.resetLine = false ∧ s.pos = some p ∧ s.lim = some l ∧
    (s.phase = .busy .cmd1 ∨ s.phase = .busy .tloop ∧ ∃ e, s.tagEnd = some e ∧ p < e)

/-- A descriptor is the next item, its first byte at `p` and the limit `l` in force
(spec/44_sequencer.md R122, R126). -/
def State.AtDescriptor (s : State) (p l : Nat) : Prop :=
  s.resetLine = false ∧ s.pos = some p ∧ s.lim = some l ∧ (s.phase = .busy .desc1 ∨ s.phase = .busy .tdesc)

/-- The state after a command `c` that ends at `q`: the response of a `CMD` request, or one more
command of the current tag; nothing else changes (spec/44_sequencer.md R123, R127). -/
def State.withCommand (s : State) (c : Command) (q : Nat) : State :=
  if s.phase = .busy .cmd1 then { s with pos := some q, result := some (.command c, q), phase := .done }
  else { s with pos := some q, cmds := s.cmds ++ [c] }

/-- The state after a descriptor `d` at `p` with the limit `l` in force: the response of a `DESC`
request, or an open tag region; nothing else changes (spec/44_sequencer.md R122, R126). -/
def State.withDescriptor (s : State) (d : Descriptor) (p l : Nat) : State :=
  if s.phase = .busy .desc1 then { s with pos := some (p + 8), result := some (.descriptor d, p + 8), phase := .done }
  else { s with
    tagStart := some p, desc := some d, tagEnd := some (p + 8 + 16 * d.qwordCount.toNat), cmds := []
    pos := some (p + 8), limSave := l :: s.limSave, lim := some (min l (p + 8 + 16 * d.qwordCount.toNat))
    phase := .busy .tloop }

/-- The payload length in bytes of a known opcode, from `cmd` and `num`; none for an unknown opcode
(the table of spec/30_encoding.md R61). -/
def payloadLength (cmd num : Nat) : Option Nat :=
  if cmd ∈ [0x00, 0x01, 0x05, 0x11, 0x17] then some 0
  else if cmd = 0x30 then some 16
  else if cmd = 0x4A then some (if num ≠ 0 then num * 8 else 2048)
  else if cmd ∈ [0x60, 0x65, 0x6E] then some (4 * if num ≠ 0 then num else 256)
  else if cmd = 0x6C then some (16 * if num ≠ 0 then num else 256)
  else if cmd = 0x6D then some (8 * if num ≠ 0 then num else 256)
  else none

/-- The 16-bit little-endian value of the bytes at `a` and `a+1` (spec/41_vif_commands.md R86). -/
def State.half (s : State) (a : Nat) : Half := BitVec.ofNat 16 ((s.srcByte a).toNat + 256 * (s.srcByte (a + 1)).toNat)

/-- The 32-bit little-endian value of the bytes at `a` to `a+3` (spec/41_vif_commands.md R86). -/
def State.word (s : State) (a : Nat) : Word :=
  BitVec.ofNat 32 ((s.srcByte a).toNat + 256 * (s.srcByte (a + 1)).toNat + 256 ^ 2 * (s.srcByte (a + 2)).toNat
    + 256 ^ 3 * (s.srcByte (a + 3)).toNat)

end Sys2Proof.Machine
end

