-- ==== Sys2Proof/Certificates/Slice0/Obligations.lean ====
section
/-! DEFINITION. The statements for the provers, from the spec's numbered rules. Sections: reset and
requests; decoding and encoding; descriptors; commands; the tag region; packets; errors; the
invariant; the whole machine. -/

open Sys2Proof Sys2Proof.Machine

/-! ## Reset and requests -/

/-- spec/70_reset_and_hazards.md R150: at power-up and wherever reset is asserted, `PHASE` is `IDLE`,
the lists are empty, every other register holds no value and no response is given. -/
def Obligations.ResetClearsTheEngineAtAnyTime : Prop :=
  (State.reset.phase = .idle ∧ State.reset.Cleared) ∧
    ∀ s : State, s.resetLine = true → ∃ t, step s = .next t ∧ t.phase = .idle ∧ t.Cleared ∧ t.response = none

/-- What accepting a request writes (spec/44_sequencer.md R121); a request with a reserved code or a
start past the source changes no register, no response and nothing of the source (spec/10_state.md
R18). Two things in it are the model's choices and no rule's: that the first of several waiting
requests is the one taken and the rest wait on (notes/assumptions/2.md), and that an unacceptable one
gives a next state (notes/assumptions/6.md); that it is then off the list is not stated. -/
def Obligations.AcceptanceWritesEveryRegister : Prop :=
  ∀ (s : State) (r : Request) (rest : List Request), s.resetLine = false → s.Resting → s.requests = r :: rest →
    (r.op.toNat ≤ 4 → r.p0 ≤ r.len →
      ∃ t, step s = .next t ∧ t.req = some r ∧ t.requests = rest ∧ t.op = some r.op ∧ t.pos = some r.p0 ∧
        t.lim = some r.len ∧ t.limSave = [] ∧ t.cmds = [] ∧ t.tags = [] ∧ t.winEnd = none ∧ t.tagStart = none ∧
        t.tagEnd = none ∧ t.desc = none ∧ t.result = none ∧ t.err = none ∧ t.response = none ∧
        (r.op.toNat = 0 → t.phase = .busy .desc1) ∧ (r.op.toNat = 1 → t.phase = .busy .cmd1) ∧
        (r.op.toNat = 2 → t.phase = .busy .tdesc) ∧ (r.op.toNat = 3 ∨ r.op.toNat = 4 → t.phase = .busy .frame)) ∧
    (4 < r.op.toNat ∨ r.len < r.p0 →
      ∃ t, step s = .next t ∧ t = { s with requests := t.requests } ∧ t.response = s.response)

/-- While the engine is `BUSY` no waiting request is accepted; in `DONE` or `ERROR` one is
(spec/70_reset_and_hazards.md R155). That of several it is the first is the model's choice
(notes/assumptions/2.md). -/
def Obligations.RequestsWaitWhileBusy : Prop :=
  (∀ s t : State, s.resetLine = false → s.Running → step s = .next t → t.requests = s.requests ∧ t.req = s.req) ∧
    ∀ (s : State) (r : Request) (rest : List Request), s.resetLine = false → (s.phase = .done ∨ s.phase = .error) →
      s.requests = r :: rest → r.op.toNat ≤ 4 → r.p0 ≤ r.len →
      ∃ t, step s = .next t ∧ t.req = some r ∧ t.Running ∧ t.requests = rest

/-- Which phases give which response, and that the engine rests until a request is there
(spec/44_sequencer.md R130). That a rest is a step that changes nothing is the model's choice
(notes/assumptions/3.md). -/
def Obligations.ResponseByPhase : Prop :=
  ∀ s : State,
    (∀ v q, s.phase = .done → s.result = some (v, q) → s.response = some (.ok v q)) ∧
      (∀ e, s.phase = .error → s.err = some e → s.response = some (.err e)) ∧
      (s.phase = .idle → s.response = none) ∧ (s.Running → s.response = none) ∧
      (s.resetLine = false → s.Resting → s.requests = [] → step s = .next s)

/-- A response is readable from `DONE` or `ERROR` on, unchanged, until a request is accepted or reset
(spec/70_reset_and_hazards.md R156). That the request then accepted is the first of those waiting is
the model's choice (notes/assumptions/2.md). -/
def Obligations.ResponseReadableUntilAcceptOrReset : Prop :=
  (∀ s : State, s.Running → s.response = none) ∧
    (∀ s t : State, s.Running → step s = .next t → t.phase = .done ∨ t.phase = .error → t.response.isSome) ∧
    ∀ s t : State, (s.phase = .done ∨ s.phase = .error) → step s = .next t →
      (t.phase = s.phase ∧ t.response = s.response) ∨ s.resetLine = true ∨
        ∃ r, s.requests.head? = some r ∧ r.op.toNat ≤ 4 ∧ r.p0 ≤ r.len ∧ t.req = some r ∧ t.Running

/-- spec/70_reset_and_hazards.md R152: whatever two engines did before, accepting the same request puts
them in the same state, but for the model's own counter of accepted requests. -/
def Obligations.NothingCarriesBetweenRequests : Prop :=
  ∀ (s₁ s₂ t₁ t₂ : State) (r : Request) (rest : List Request), s₁.Resting → s₂.Resting →
    s₁.resetLine = false → s₂.resetLine = false → s₁.requests = r :: rest → s₂.requests = r :: rest →
    r.op.toNat ≤ 4 → r.p0 ≤ r.len → step s₁ = .next t₁ → step s₂ = .next t₂ →
    t₁ = { t₂ with changeEpoch := t₁.changeEpoch }

/-- A running request does not depend on the requests that wait behind it (spec/00_scope.md R5). -/
def Obligations.RunningIgnoresWaitingRequests : Prop :=
  ∀ (s t : State) (waiting : List Request), s.resetLine = false → s.Running → step s = .next t →
    step { s with requests := waiting } = .next { t with requests := waiting }

/-- spec/10_state.md R27: the working registers are not observable. -/
def Obligations.WorkingRegistersAreNotObservable : Prop :=
  ∀ (s t : State), t.phase = s.phase → t.result = s.result → t.err = s.err → t.observe = s.observe

/-! ## Decoding and encoding -/

/-- Decoding the bytes of a well-formed instruction, whatever follows them, gives it back. -/
def Obligations.DecodeOfEncodeIsTheInstruction : Prop :=
  ∀ (i : Instr) (rest : List Byte), i.wf = true → decode i.format (encode i ++ rest) = .ok (i, rest)

/-- spec/40_tag_descriptor.md R82: re-encoding a decoded descriptor gives its 8 bytes back. -/
def Obligations.DescriptorReencodesToItsBytes : Prop :=
  ∀ bs : List Byte, bs.length = 8 → ∃ i, decode .dmatag bs = .ok (i, []) ∧ encode i = bs

/-- spec/30_encoding.md R64: the opcode bytes outside the table are unknown, the twelve inside it are
known. -/
def Obligations.ExactlyTwelveOpcodesAreKnown : Prop :=
  ∀ h : Word, let cmd : Byte := BitVec.ofNat 8 (h.toNat / 2 ^ 24)
    (cmd ∈ [0x00, 0x01, 0x05, 0x11, 0x17, 0x30, 0x4A, 0x60, 0x65, 0x6C, 0x6D, 0x6E] → ∃ i, decodeCommand h = .ok i) ∧
      (cmd ∉ [0x00, 0x01, 0x05, 0x11, 0x17, 0x30, 0x4A, 0x60, 0x65, 0x6C, 0x6D, 0x6E] →
        decodeCommand h = .error (.unknownOpcode cmd))

/-- spec/30_encoding.md R60: two headers that differ only in ignored bits decode to the same command. -/
def Obligations.IgnoredHeaderBitsDoNotMatter : Prop :=
  ∀ h h' : Word, h.toNat / 2 ^ 24 = h'.toNat / 2 ^ 24 →
    (h.toNat / 2 ^ 24 ∈ [0x00, 0x11, 0x17, 0x30] → decodeCommand h = decodeCommand h') ∧
      (h.toNat / 2 ^ 24 = 0x01 → h.toNat % 2 ^ 16 = h'.toNat % 2 ^ 16 → decodeCommand h = decodeCommand h') ∧
      (h.toNat / 2 ^ 24 = 0x05 → h.toNat % 4 = h'.toNat % 4 → decodeCommand h = decodeCommand h') ∧
      (h.toNat / 2 ^ 24 ∈ [0x60, 0x65, 0x6C, 0x6D, 0x6E] → h.toNat % 2 ^ 10 = h'.toNat % 2 ^ 10 →
        h.toNat / 2 ^ 14 % 4 = h'.toNat / 2 ^ 14 % 4 → h.toNat / 2 ^ 16 % 2 ^ 8 = h'.toNat / 2 ^ 16 % 2 ^ 8 →
        decodeCommand h = decodeCommand h')

/-- Words written out from the encoding tables decode to what they stand for. -/
def Obligations.WrittenWordsDecode : Prop :=
  decodeTableWord 32 0x01000104 = some (.stcycl 4 1) ∧ decodeTableWord 32 0x4A00FFFF = some (.mpg 0x7FFF8 2048) ∧
    decodeTableWord 32 0x6500C3FF = some (.unpackV2x16 0x3FF true true 256) ∧
    decodeTableWord 64 0x12345678FFFF1234 = some (.tagEnd 0x1234 0x3FF .enabled true 0x12345678) ∧
    decodeTableWord 32 0x80000000 = none

/-- spec/00_scope.md R10: little-endian assembly, the byte at the lowest position least significant. -/
def Obligations.ReadsAreLittleEndian : Prop :=
  ∀ (s : State) (a k : Nat), s.memRead a 0 = 0 ∧ s.memRead a (k + 1) = (s.srcByte a).toNat + 256 * s.memRead (a + 1) k ∧
    s.memRead a k = ((List.range k).map fun i => 256 ^ i * (s.srcByte (a + i)).toNat).sum

/-- A step runs the decoded instruction: where the bytes at `POS` decode to `i`, in the phase that
decodes such an item and within `LIM`, the step is the meaning of `i` in the same state. -/
def Obligations.StepRunsTheDecodedInstruction : Prop :=
  ∀ (s : State) (p l : Nat) (i : Instr) (rest : List Byte),
    (s.AtCommand p l → p + 4 ≤ l → decode .vifcode (s.srcBytes p 4) = .ok (i, rest) →
      i.wf = true ∧ step s = exec i s) ∧
    (s.AtDescriptor p l → p + 8 ≤ l → decode .dmatag (s.srcBytes p 8) = .ok (i, rest) →
      i.wf = true ∧ step s = exec i s)

/-! ## What each instruction does, for every state in which its item is decoded -/

/-- NOP, STCYCL, STMOD, FLUSH, MSCNT end 4 bytes after their header and change nothing but `POS` and
where their record goes. -/
def Obligations.HeaderOnlyCommandsComplete : Prop :=
  ∀ (s : State) (p : Nat) (cl wl : BitVec 8) (mode : BitVec 2), s.pos = some p →
    (s.phase = .busy .cmd1 ∨ s.phase = .busy .tloop) →
    exec .nop s = .next (s.withCommand .nop (p + 4)) ∧
      exec (.stcycl cl wl) s = .next (s.withCommand (.stcycl cl wl) (p + 4)) ∧
      exec (.stmod mode) s = .next (s.withCommand (.stmod mode) (p + 4)) ∧
      exec .flush s = .next (s.withCommand .flush (p + 4)) ∧
      exec .mscnt s = .next (s.withCommand .mscnt (p + 4))

/-- STROW and MPG, where their payload fits below `LIM`. -/
def Obligations.StrowAndMpgComplete : Prop :=
  ∀ (s : State) (p l : Nat) (address : BitVec 19) (num : BitVec 12), s.pos = some p → s.lim = some l →
    (s.phase = .busy .cmd1 ∨ s.phase = .busy .tloop) →
    (p + 20 ≤ l → exec .strow s = .next (s.withCommand
      (.strow (s.word (p + 4)) (s.word (p + 8)) (s.word (p + 12)) (s.word (p + 16))) (p + 20))) ∧
      (p + 4 + num.toNat ≤ l → exec (.mpg address num) s = .next (s.withCommand
        (.mpg address num ((List.range num.toNat).map fun i => s.srcByte (p + 4 + i))) (p + 4 + num.toNat)))

/-- The five UNPACK commands, where their payload fits below `LIM`. -/
def Obligations.UnpackCommandsComplete : Prop :=
  ∀ (s : State) (p l : Nat) (address : BitVec 10) (z t : Bool) (n : Nat), s.pos = some p → s.lim = some l →
    (s.phase = .busy .cmd1 ∨ s.phase = .busy .tloop) →
    (p + 4 + 4 * n ≤ l →
      exec (.unpackS32 address z t n) s = .next (s.withCommand
        (.unpackS32 address z t ((List.range n).map fun i => s.word (p + 4 + i * 4))) (p + 4 + 4 * n)) ∧
      exec (.unpackV2x16 address z t n) s = .next (s.withCommand
        (.unpackV2x16 address z t ((List.range (n * 2)).map fun i => s.half (p + 4 + i * 2))) (p + 4 + 4 * n)) ∧
      exec (.unpackV4x8 address z t n) s = .next (s.withCommand
        (.unpackV4x8 address z t ((List.range (n * 4)).map fun i => s.srcByte (p + 4 + i))) (p + 4 + 4 * n))) ∧
      (p + 4 + 16 * n ≤ l →
        exec (.unpackV4x32 address z t n) s = .next (s.withCommand
          (.unpackV4x32 address z t ((List.range (n * 4)).map fun i => s.word (p + 4 + i * 4))) (p + 4 + 16 * n))) ∧
      (p + 4 + 8 * n ≤ l →
        exec (.unpackV4x16 address z t n) s = .next (s.withCommand
          (.unpackV4x16 address z t ((List.range (n * 4)).map fun i => s.half (p + 4 + i * 2))) (p + 4 + 8 * n)))

/-- The eight tag kinds: the record with their kind is the response of a `DESC` request or opens a tag
region. -/
def Obligations.TagDescriptorsComplete : Prop :=
  ∀ (s : State) (p l : Nat) (q : BitVec 16) (pad : BitVec 10) (c : PriorityControl) (irq : Bool) (a : Word),
    s.pos = some p → s.lim = some l → (s.phase = .busy .desc1 ∨ s.phase = .busy .tdesc) →
    exec (.tagRefe q pad c irq a) s = .next (s.withDescriptor ⟨q, pad, c, .refe, irq, a⟩ p l) ∧
      exec (.tagCnt q pad c irq a) s = .next (s.withDescriptor ⟨q, pad, c, .cnt, irq, a⟩ p l) ∧
      exec (.tagNext q pad c irq a) s = .next (s.withDescriptor ⟨q, pad, c, .next, irq, a⟩ p l) ∧
      exec (.tagRef q pad c irq a) s = .next (s.withDescriptor ⟨q, pad, c, .ref, irq, a⟩ p l) ∧
      exec (.tagRefs q pad c irq a) s = .next (s.withDescriptor ⟨q, pad, c, .refs, irq, a⟩ p l) ∧
      exec (.tagCall q pad c irq a) s = .next (s.withDescriptor ⟨q, pad, c, .call, irq, a⟩ p l) ∧
      exec (.tagRet q pad c irq a) s = .next (s.withDescriptor ⟨q, pad, c, .ret, irq, a⟩ p l) ∧
      exec (.tagEnd q pad c irq a) s = .next (s.withDescriptor ⟨q, pad, c, .end_, irq, a⟩ p l)

/-- A payload that does not fit below `LIM` traps: the error names its first byte
(spec/41_vif_commands.md R100). -/
def Obligations.ShortPayloadTraps : Prop :=
  ∀ (s : State) (p l : Nat) (address : BitVec 19) (num : BitVec 12) (a : BitVec 10) (z t : Bool) (n : Nat),
    s.pos = some p → s.lim = some l →
    (l < p + 20 → exec .strow s = .next (s.raise (.unexpectedEnd (p + 4) .command))) ∧
      (l < p + 4 + num.toNat → exec (.mpg address num) s = .next (s.raise (.unexpectedEnd (p + 4) .command))) ∧
      (l < p + 4 + 4 * n → exec (.unpackS32 a z t n) s = .next (s.raise (.unexpectedEnd (p + 4) .command)) ∧
        exec (.unpackV2x16 a z t n) s = .next (s.raise (.unexpectedEnd (p + 4) .command)) ∧
        exec (.unpackV4x8 a z t n) s = .next (s.raise (.unexpectedEnd (p + 4) .command))) ∧
      (l < p + 4 + 16 * n → exec (.unpackV4x32 a z t n) s = .next (s.raise (.unexpectedEnd (p + 4) .command))) ∧
      (l < p + 4 + 8 * n → exec (.unpackV4x16 a z t n) s = .next (s.raise (.unexpectedEnd (p + 4) .command)))

/-- FRAME. No instruction writes the source, a request, an input or the packet's window and tags: every
byte reads after as before (spec/20_memory.md R45, spec/41_vif_commands.md R87). -/
def Obligations.InstructionsLeaveSourceAndWindow : Prop :=
  ∀ (i : Instr) (s t : State), exec i s = .next t →
    (∀ a, t.srcByte a = s.srcByte a) ∧ t.req = s.req ∧ t.requests = s.requests ∧ t.op = s.op ∧ t.winEnd = s.winEnd ∧
      t.tags = s.tags ∧ t.resetLine = s.resetLine ∧ t.sourceChanged = s.sourceChanged ∧ t.changeEpoch = s.changeEpoch

/-- FRAME of the commands (spec/41_vif_commands.md R87): besides `POS` and where the record goes, a
command changes no register; one whose payload does not fit raises its error. -/
def Obligations.CommandsChangeOnlyCursorAndRecord : Prop :=
  ∀ (i : Instr) (s t : State), i.format = .vifcode → exec i s = .next t →
    ∃ p, s.pos = some p ∧
      ((∃ c : Command, t = s.withCommand c (p + c.size)) ∨ t = s.raise (.unexpectedEnd (p + 4) .command))

/-! ## Descriptors -/

/-- spec/40_tag_descriptor.md R68, spec/30_encoding.md R49 to R51: a descriptor is read whole or not at
all, and its record holds the fields of its bytes. -/
def Obligations.DescriptorFieldsAreThoseOfItsBytes : Prop :=
  ∀ (s : State) (p l : Nat), s.AtDescriptor p l →
    (l < p + 8 → step s = .next (s.raise (.unexpectedEnd p .descriptor))) ∧
      (p + 8 ≤ l → ∃ d : Descriptor, step s = .next (s.withDescriptor d p l) ∧
        d.qwordCount.toNat = (s.srcByte p).toNat + 256 * (s.srcByte (p + 1)).toNat ∧
        d.padding.toNat = (s.srcByte (p + 2)).toNat + 256 * ((s.srcByte (p + 3)).toNat % 4) ∧
        d.priorityControl.code = (s.srcByte (p + 3)).toNat / 4 % 4 ∧
        d.id.code = (s.srcByte (p + 3)).toNat / 16 % 8 ∧
        d.irq.toNat = (s.srcByte (p + 3)).toNat / 128 ∧
        d.address.toNat = (s.srcByte (p + 4)).toNat + 256 * (s.srcByte (p + 5)).toNat
          + 256 ^ 2 * (s.srcByte (p + 6)).toNat + 256 ^ 3 * (s.srcByte (p + 7)).toNat)

/-- spec/44_sequencer.md R122, R126: `BUSY.DESC1` and `BUSY.TDESC` run `DecodeDescriptor()`. -/
def Obligations.DescriptorPhasesRunDecodeDescriptor : Prop :=
  ∀ (s : State) (p l : Nat), s.resetLine = false → s.sourceChanged = false → s.pos = some p → s.lim = some l →
    (s.phase = .busy .desc1 →
      (∀ d q, descriptorFn s.source l p = .ok (d, q) →
        step s = .next { s with pos := some q, result := some (.descriptor d, q), phase := .done }) ∧
      (∀ e, descriptorFn s.source l p = .error e → step s = .next (s.raise e))) ∧
    (s.phase = .busy .tdesc →
      (∀ d q, descriptorFn s.source l p = .ok (d, q) →
        step s = .next { s with
          tagStart := some p, desc := some d, tagEnd := some (p + 8 + 16 * d.qwordCount.toNat), cmds := []
          pos := some q, limSave := l :: s.limSave, lim := some (min l (p + 8 + 16 * d.qwordCount.toNat))
          phase := .busy .tloop }) ∧
      (∀ e, descriptorFn s.source l p = .error e → step s = .next (s.raise e)))

/-- Of a descriptor only `qword_count` plays a part in the decode of its tag; `id`, `priority_control`,
`irq`, `padding` and `address` play none (spec/42_tag.md R106, R108). Two descriptors with the same
`qword_count` leave the engine in the same state but for the record itself, with any response at the
same position; a step before the region's end does not depend on `DESC`; and the end of the region
of a `TAG` request puts the record in the response and depends on nothing else of it. -/
def Obligations.TagDecodeDependsOnQwordCountOnly : Prop :=
  (∀ (w w' : Dword) (s t t' : State), w.toNat % 2 ^ 16 = w'.toNat % 2 ^ 16 →
    exec (decodeDescriptor w) s = .next t → exec (decodeDescriptor w') s = .next t' →
    t' = { t with desc := t'.desc, result := t'.result } ∧ t'.result.map Prod.snd = t.result.map Prod.snd) ∧
    ∀ (s t : State) (p e : Nat) (d : Descriptor), s.resetLine = false → s.phase = .busy .tloop → s.pos = some p →
      s.tagEnd = some e → step s = .next t →
      (p < e → step { s with desc := some d } = .next { t with desc := some d }) ∧
      (e ≤ p → s.op = some 2 →
        step { s with desc := some d } = .next { t with desc := some d, result := some (.tag ⟨d, s.cmds⟩, p) } ∧
          t.result.map Prod.snd = some p)

/-! ## Commands -/

/-- spec/41_vif_commands.md R88, R91, R92: NOP, FLUSH and MSCNT keep nothing of their header. -/
def Obligations.NopFlushMscntRules : Prop :=
  ∀ (s : State) (p l : Nat), s.AtCommand p l →
    (l < p + 4 → step s = .next (s.raise (.unexpectedEnd p .command))) ∧
      (p + 4 ≤ l →
        (s.srcByte (p + 3) = 0x00 → step s = .next (s.withCommand .nop (p + 4))) ∧
        (s.srcByte (p + 3) = 0x11 → step s = .next (s.withCommand .flush (p + 4))) ∧
        (s.srcByte (p + 3) = 0x17 → step s = .next (s.withCommand .mscnt (p + 4))))

/-- spec/41_vif_commands.md R89: STCYCL keeps `cl`, the header's first byte, and `wl`, its second. -/
def Obligations.StcyclRule : Prop :=
  ∀ (s : State) (p l : Nat), s.AtCommand p l →
    (l < p + 4 → step s = .next (s.raise (.unexpectedEnd p .command))) ∧
      (p + 4 ≤ l → s.srcByte (p + 3) = 0x01 →
        step s = .next (s.withCommand (.stcycl (s.srcByte p) (s.srcByte (p + 1))) (p + 4)))

/-- spec/41_vif_commands.md R90: STMOD keeps the two low bits of its header. -/
def Obligations.StmodRule : Prop :=
  ∀ (s : State) (p l : Nat), s.AtCommand p l →
    (l < p + 4 → step s = .next (s.raise (.unexpectedEnd p .command))) ∧
      (p + 4 ≤ l → s.srcByte (p + 3) = 0x05 →
        step s = .next (s.withCommand (.stmod (BitVec.ofNat 2 (s.srcByte p).toNat)) (p + 4)))

/-- spec/41_vif_commands.md R93: STROW keeps four words, whatever its header's other bytes hold. -/
def Obligations.StrowRule : Prop :=
  ∀ (s : State) (p l : Nat), s.AtCommand p l →
    (l < p + 4 → step s = .next (s.raise (.unexpectedEnd p .command))) ∧
      (p + 4 ≤ l → s.srcByte (p + 3) = 0x30 →
        (l < p + 20 → step s = .next (s.raise (.unexpectedEnd (p + 4) .command))) ∧
        (p + 20 ≤ l → step s = .next (s.withCommand
          (.strow (s.word (p + 4)) (s.word (p + 8)) (s.word (p + 12)) (s.word (p + 16))) (p + 20))))

/-- spec/41_vif_commands.md R94: MPG, with its exact address and a payload of `num*8` or 2048 bytes. -/
def Obligations.MpgRule : Prop :=
  ∀ (s : State) (p l : Nat), s.AtCommand p l →
    (l < p + 4 → step s = .next (s.raise (.unexpectedEnd p .command))) ∧
      (p + 4 ≤ l → s.srcByte (p + 3) = 0x4A →
        ∀ k, k = (if s.srcByte (p + 2) ≠ 0 then (s.srcByte (p + 2)).toNat * 8 else 2048) →
          (l < p + 4 + k → step s = .next (s.raise (.unexpectedEnd (p + 4) .command))) ∧
          (p + 4 + k ≤ l → ∃ (address : BitVec 19) (num : BitVec 12),
            address.toNat = ((s.srcByte p).toNat + 256 * (s.srcByte (p + 1)).toNat) * 8 ∧ num.toNat = k ∧
            step s = .next (s.withCommand
              (.mpg address num ((List.range k).map fun i => s.srcByte (p + 4 + i))) (p + 4 + k))))

/-- spec/41_vif_commands.md R95 to R99: the five UNPACK commands keep `address`, two flags and their
units; `immediate[13:10]` is ignored. -/
def Obligations.UnpackRules : Prop :=
  ∀ (s : State) (p l : Nat), s.AtCommand p l →
    (l < p + 4 → step s = .next (s.raise (.unexpectedEnd p .command))) ∧
      (p + 4 ≤ l →
        ∀ (n : Nat) (address : BitVec 10) (z t : Bool),
          n = (if s.srcByte (p + 2) ≠ 0 then (s.srcByte (p + 2)).toNat else 256) →
          address.toNat = (s.srcByte p).toNat + 256 * ((s.srcByte (p + 1)).toNat % 4) →
          z.toNat = (s.srcByte (p + 1)).toNat / 64 % 2 → t.toNat = (s.srcByte (p + 1)).toNat / 128 →
          (s.srcByte (p + 3) ∈ [0x60, 0x65, 0x6E] → l < p + 4 + 4 * n →
            step s = .next (s.raise (.unexpectedEnd (p + 4) .command))) ∧
          (s.srcByte (p + 3) = 0x6C → l < p + 4 + 16 * n →
            step s = .next (s.raise (.unexpectedEnd (p + 4) .command))) ∧
          (s.srcByte (p + 3) = 0x6D → l < p + 4 + 8 * n →
            step s = .next (s.raise (.unexpectedEnd (p + 4) .command))) ∧
          (s.srcByte (p + 3) = 0x60 → p + 4 + 4 * n ≤ l → step s = .next (s.withCommand
            (.unpackS32 address z t ((List.range n).map fun i => s.word (p + 4 + i * 4))) (p + 4 + 4 * n))) ∧
          (s.srcByte (p + 3) = 0x65 → p + 4 + 4 * n ≤ l → step s = .next (s.withCommand
            (.unpackV2x16 address z t ((List.range (n * 2)).map fun i => s.half (p + 4 + i * 2))) (p + 4 + 4 * n))) ∧
          (s.srcByte (p + 3) = 0x6C → p + 4 + 16 * n ≤ l → step s = .next (s.withCommand
            (.unpackV4x32 address z t ((List.range (n * 4)).map fun i => s.word (p + 4 + i * 4))) (p + 4 + 16 * n))) ∧
          (s.srcByte (p + 3) = 0x6D → p + 4 + 8 * n ≤ l → step s = .next (s.withCommand
            (.unpackV4x16 address z t ((List.range (n * 4)).map fun i => s.half (p + 4 + i * 2))) (p + 4 + 8 * n))) ∧
          (s.srcByte (p + 3) = 0x6E → p + 4 + 4 * n ≤ l → step s = .next (s.withCommand
            (.unpackV4x8 address z t ((List.range (n * 4)).map fun i => s.srcByte (p + 4 + i))) (p + 4 + 4 * n))))

/-- spec/41_vif_commands.md R100: the three checks of a command, in their order, and nothing else
fails. -/
def Obligations.CommandChecksInOrder : Prop :=
  ∀ (s : State) (p l : Nat), s.AtCommand p l →
    (l < p + 4 → step s = .next (s.raise (.unexpectedEnd p .command))) ∧
      (p + 4 ≤ l →
        (payloadLength (s.srcByte (p + 3)).toNat (s.srcByte (p + 2)).toNat = none →
          step s = .next (s.raise (.unknownOpcode (s.srcByte (p + 3)) p .command))) ∧
        ∀ k, payloadLength (s.srcByte (p + 3)).toNat (s.srcByte (p + 2)).toNat = some k →
          (l < p + 4 + k → step s = .next (s.raise (.unexpectedEnd (p + 4) .command))) ∧
          (p + 4 + k ≤ l → ∃ c : Command, c.size = 4 + k ∧ step s = .next (s.withCommand c (p + 4 + k))))

/-- spec/44_sequencer.md R123: `BUSY.CMD1` runs `DecodeCommand()`. -/
def Obligations.CommandPhaseRunsDecodeCommand : Prop :=
  ∀ (s : State) (p l : Nat), s.resetLine = false → s.sourceChanged = false → s.pos = some p → s.lim = some l →
    s.phase = .busy .cmd1 →
    (∀ c q, commandFn s.source l p = .ok (c, q) →
      step s = .next { s with pos := some q, result := some (.command c, q), phase := .done }) ∧
    (∀ e, commandFn s.source l p = .error e → step s = .next (s.raise e))

/-! ## The tag region -/

/-- spec/44_sequencer.md R127: `BUSY.TLOOP` decodes one command before the region's end; at the end it
gives the tag. -/
def Obligations.RegionPhaseDecodesThenCloses : Prop :=
  ∀ (s : State) (p l e : Nat), s.resetLine = false → s.sourceChanged = false → s.pos = some p → s.lim = some l →
    s.phase = .busy .tloop → s.tagEnd = some e →
    (p < e →
      (∀ c q, commandFn s.source l p = .ok (c, q) → step s = .next { s with pos := some q, cmds := s.cmds ++ [c] }) ∧
      (∀ err, commandFn s.source l p = .error err → step s = .next (s.raise err))) ∧
    (e ≤ p → ∀ (op : BitVec 3) (d : Descriptor) (l' : Nat) (rest : List Nat), s.op = some op → s.desc = some d →
      s.limSave = l' :: rest →
      (op.toNat = 2 →
        step s = .next { s with
          lim := some l', limSave := rest, result := some (.tag ⟨d, s.cmds⟩, p), phase := .done }) ∧
      (op.toNat ≠ 2 →
        step s = .next { s with
          lim := some l', limSave := rest, tags := s.tags ++ [⟨d, s.cmds⟩]
          phase := if chainClass d.id = .terminate then .busy .pad else .busy .ploop }))

/-- spec/43_packet.md R114: after a tag of a packet the padding is consumed for `Refe`, `Ret` and `End`,
and the next tag is looked for after `Cnt`, `Next`, `Ref`, `Refs` and `Call`, at the first byte after
the tag. -/
def Obligations.TagKindDecidesWhatFollows : Prop :=
  (∀ id, chainClass id = .terminate ↔ id ∈ [TagId.refe, .ret, .end_]) ∧
    (∀ id, chainClass id = .continue_ ↔ id ∈ [TagId.cnt, .next, .ref, .refs, .call]) ∧
    ∀ (s t : State) (p e : Nat) (op : BitVec 3) (d : Descriptor), s.resetLine = false → s.phase = .busy .tloop →
      s.pos = some p → s.tagEnd = some e → e ≤ p → s.op = some op → op.toNat ≠ 2 → s.desc = some d → step s = .next t →
      t.pos = some p ∧
        (chainClass d.id = .terminate → t.phase = .busy .pad) ∧
        (chainClass d.id = .continue_ → t.phase = .busy .ploop)

/-- A tag response ends where its region ends and its commands fill the region exactly
(spec/42_tag.md R101, R102). -/
def Obligations.TagResponseFillsItsRegion : Prop :=
  ∀ s t : State, s.Inv → s.resetLine = false → s.phase = .busy .tloop → step s = .next t → t.phase = .done →
    ∃ (g : Tag) (q start : Nat), t.result = some (.tag g, q) ∧ s.tagStart = some start ∧
      q = start + 8 + 16 * g.descriptor.qwordCount.toNat ∧
      commandsSize g.commands = 16 * g.descriptor.qwordCount.toNat ∧ ∀ c ∈ g.commands, c.wf

/-! ## Packets -/

/-- spec/44_sequencer.md R124, spec/43_packet.md R110, R111: `BUSY.FRAME` by either framing. -/
def Obligations.FramingOpensTheWindow : Prop :=
  ∀ (s : State) (p l : Nat) (op : BitVec 3) (r : Request), s.resetLine = false → s.phase = .busy .frame →
    s.pos = some p → s.lim = some l → s.op = some op → s.req = some r →
    (op.toNat = 3 → step s = .next { s with
      winEnd := some (p + r.n), limSave := l :: s.limSave, lim := some (min l (p + r.n)), phase := .busy .ploop }) ∧
    (op.toNat = 4 → l < p + 4 → step s = .next (s.raise (.unexpectedEnd p .packet))) ∧
    (op.toNat = 4 → p + 4 ≤ l → ∀ w, w = p + 4 + 16 * ((s.srcByte p).toNat + 256 * (s.srcByte (p + 1)).toNat
        + 256 ^ 2 * (s.srcByte (p + 2)).toNat + 256 ^ 3 * (s.srcByte (p + 3)).toNat) →
      step s = .next { s with
        pos := some (p + 4), winEnd := some w, limSave := l :: s.limSave, lim := some (min l w)
        phase := .busy .ploop })

/-- spec/44_sequencer.md R125: `BUSY.PLOOP` goes on to the next tag or ends the packet. -/
def Obligations.WindowCheckEndsThePacket : Prop :=
  ∀ (s : State) (p w : Nat), s.resetLine = false → s.phase = .busy .ploop → s.pos = some p → s.winEnd = some w →
    (p < w → step s = .next { s with phase := .busy .tdesc }) ∧
    (w ≤ p → ∀ l rest, s.limSave = l :: rest →
      step s = .next { s with lim := some l, limSave := rest, result := some (.packet s.tags, p), phase := .done })

/-- spec/44_sequencer.md R128, spec/43_packet.md R115: `BUSY.PAD` skips to the window's end, or fails at
the first padding byte when the source ends before. -/
def Obligations.PaddingSkipsToTheWindowEnd : Prop :=
  ∀ (s : State) (p l w : Nat), s.resetLine = false → s.phase = .busy .pad → s.pos = some p → s.lim = some l →
    s.winEnd = some w → p ≤ w →
    (w ≤ l → step s = .next { s with pos := some w, phase := .busy .ploop }) ∧
    (l < w → step s = .next (s.raise (.unexpectedEnd p .packet)))

/-- A packet response ends at the window's end, every tag in it is whole, and no tag follows a
terminating one (spec/43_packet.md R117). -/
def Obligations.PacketResponseEndsAtTheWindowEnd : Prop :=
  ∀ s t : State, s.Inv → s.resetLine = false → s.phase = .busy .ploop → step s = .next t → t.phase = .done →
    ∃ tags w, t.result = some (.packet tags, w) ∧ s.winEnd = some w ∧ (∀ g ∈ tags, g.wf) ∧ chainOk tags

/-! ## Errors -/

/-- spec/44_sequencer.md R129: whatever step raises an error, the machine takes it in one way. -/
def Obligations.EveryErrorIsTakenAlike : Prop :=
  ∀ s t : State, s.resetLine = false → s.Running → step s = .next t → t.phase = .error →
    ∃ e, t = { s with err := some e, result := none, limSave := [], phase := .error } ∧
      t.observe = (.error, some (.err e))

/-- spec/60_exceptions.md R136: the layer of an error is that of the component that reads in the phase;
`Tag` is in no error record; the layers' codes. -/
def Obligations.ErrorLayerIsTheReadersLayer : Prop :=
  (Layer.descriptor.code = 1 ∧ Layer.command.code = 2 ∧ Layer.tag.code = 3 ∧ Layer.packet.code = 4) ∧
    ∀ (s t : State) (e : DecodeError), s.resetLine = false → step s = .next t → t.phase = .error → t.err = some e →
      (s.phase = .busy .desc1 ∨ s.phase = .busy .tdesc → ∃ o, e = .unexpectedEnd o .descriptor) ∧
      (s.phase = .busy .cmd1 ∨ s.phase = .busy .tloop →
        (∃ o, e = .unexpectedEnd o .command) ∨ ∃ b o, e = .unknownOpcode b o .command) ∧
      (s.phase = .busy .frame ∨ s.phase = .busy .pad → ∃ o, e = .unexpectedEnd o .packet) ∧
      s.phase ≠ .busy .ploop

/-- spec/60_exceptions.md R134: the numeric codes of the two kinds of error, 0 for none; every error
record is of one of the two. -/
def Obligations.ErrorCodes : Prop :=
  errorCode none = 0 ∧ (∀ o l, errorCode (some (.unexpectedEnd o l)) = 1) ∧
    (∀ b o l, errorCode (some (.unknownOpcode b o l)) = 2) ∧
    ∀ e : DecodeError, errorCode (some e) = 1 ∨ errorCode (some e) = 2

/-! ## The invariant -/

/-- The invariant holds after reset. -/
def Obligations.InvariantHoldsAtReset : Prop := State.reset.Inv

/-- Every step keeps the invariant, from every state that has it. -/
def Obligations.EveryStepKeepsTheInvariant : Prop := ∀ s t : State, s.Inv → step s = .next t → t.Inv

/-- From every state with the invariant the machine goes on: no step faults or refuses, so every
register a step reads holds a value (spec/10_state.md R28). Between requests it rests on two of the
model's choices: that a rest is a step (notes/assumptions/3.md) and that an unacceptable request
gives a next state (notes/assumptions/6.md). -/
def Obligations.InvariantStatesAlwaysStep : Prop := ∀ s : State, s.Inv → ∃ t, step s = .next t

/-- spec/44_sequencer.md R133: at most two limits are saved, and within a packet's commands `LIM` is
`min(L, WIN_END, TAG_END)`. -/
def Obligations.LimitsAreTheLeastInForce : Prop :=
  ∀ s : State, s.Inv → s.limSave.length ≤ 2 ∧
    ∀ op, s.phase = .busy .tloop → s.op = some op → (op.toNat = 3 ∨ op.toNat = 4) →
      ∃ r w e, s.req = some r ∧ s.winEnd = some w ∧ s.tagEnd = some e ∧ s.lim = some (min (min r.len w) e) ∧
        s.limSave = [min r.len w, r.len]

/-! ## The whole machine -/

/-- The cursor never moves back while a request runs (spec/10_state.md R21, spec/20_memory.md R42). -/
def Obligations.CursorNeverMovesBack : Prop :=
  ∀ s t : State, s.resetLine = false → s.Running → step s = .next t →
    ∃ p p', s.pos = some p ∧ t.pos = some p' ∧ p ≤ p'

/-- No step of a running request writes the source: every byte reads after as before
(spec/20_memory.md R38, R45). -/
def Obligations.NoStepWritesTheSource : Prop :=
  ∀ s t : State, s.resetLine = false → s.Running → step s = .next t →
    (∀ a, t.srcByte a = s.srcByte a) ∧ t.req = s.req ∧ t.op = s.op

/-- Every step that decodes a command advances `POS` by at least 4, every one that decodes a descriptor
by 8, the end of a tag, of a `TAG` request or in a packet, by nothing (spec/44_sequencer.md R132). -/
def Obligations.EveryItemAdvancesTheCursor : Prop :=
  ∀ (s t : State) (p p' : Nat), s.resetLine = false → step s = .next t → s.pos = some p → t.pos = some p' →
    (s.phase = .busy .tloop → t.phase = .busy .tloop → p + 4 ≤ p') ∧
    (s.phase = .busy .cmd1 → t.phase = .done → p + 4 ≤ p') ∧
    (s.phase = .busy .tdesc → t.phase = .busy .tloop → p' = p + 8) ∧
    (s.phase = .busy .desc1 → t.phase = .done → p' = p + 8) ∧
    (s.phase = .busy .tloop → (t.phase = .busy .ploop ∨ t.phase = .busy .pad ∨ t.phase = .done) → p' = p)

/-- From acceptance every request ends with the response that the function of its entry point returns,
and gives no response before (spec/44_sequencer.md R131), after at most `3 + (L - p0)/2` steps (the
bound of R132). -/
def Obligations.MachineAgreesWithTheFunctions : Prop :=
  ∀ (s : State) (r : Request), s.resetLine = false → r.op.toNat ≤ 4 → r.p0 ≤ r.len →
    ∃ (k : Nat) (t : State), k ≤ 3 + (r.len - r.p0) / 2 ∧ Host.Core.run Sys2Proof.core k (s.accept r) = .next t ∧
      t.response = some (requestFn r) ∧
      ∀ j < k, ∃ u : State, Host.Core.run Sys2Proof.core j (s.accept r) = .next u ∧ u.Running
end

