-- ==== Sys2Proof/Laws/Decode.lean ====
section
/-! SUPPORT. The laws of the byte order, of the opcode table and of the decoder. -/

namespace Sys2Proof

/-! ## Byte order -/

@[simp] theorem leNat_nil : leNat [] = 0 := rfl

@[simp] theorem leNat_cons (b : Byte) (bs : List Byte) : leNat (b :: bs) = b.toNat + 256 * leNat bs := rfl

@[simp] theorem leBytes_length (k v : Nat) : (leBytes k v).length = k := by
  induction k generalizing v with
  | zero => rfl
  | succ k ih => simp [leBytes, ih]

/-- Assembling the `k` bytes of a number gives the number modulo `256^k`. -/
theorem leNat_leBytes (k v : Nat) : leNat (leBytes k v) = v % 256 ^ k := by
  induction k generalizing v with
  | zero => simp [leBytes, Nat.mod_one]
  | succ k ih =>
    rw [leBytes, leNat_cons, ih, BitVec.toNat_ofNat, show 256 ^ (k + 1) = 256 * 256 ^ k by rw [Nat.pow_succ]; omega,
      Nat.mod_mul]

/-- `k` bytes assemble to a number below `256^k`. -/
theorem leNat_lt (bs : List Byte) : leNat bs < 256 ^ bs.length := by
  induction bs with
  | nil => simp
  | cons b bs ih =>
    have := b.isLt
    rw [leNat_cons, List.length_cons, Nat.pow_succ]
    omega

/-- The bytes of the number that some bytes assemble to are those bytes. -/
theorem leBytes_leNat (bs : List Byte) : leBytes bs.length (leNat bs) = bs := by
  induction bs with
  | nil => rfl
  | cons b bs ih =>
    have hb := b.isLt
    have hd : (b.toNat + 256 * leNat bs) / 256 = leNat bs := by omega
    have hm : BitVec.ofNat 8 (b.toNat + 256 * leNat bs) = b := BitVec.eq_of_toNat_eq (by
      rw [BitVec.toNat_ofNat]; omega)
    rw [List.length_cons, leBytes, leNat_cons, hd, hm, ih]

/-! ## Fields -/

/-- A field of a word as a number (spec/00_scope.md R7). -/
theorem field_toNat {n : Nat} (w : BitVec n) (lo len : Nat) :
    (field w lo len).toNat = w.toNat / 2 ^ lo % 2 ^ len := by
  rw [field, BitVec.toNat_ofNat, Nat.shiftRight_eq_div_pow]

/-! ## The opcode table -/

/-- The byte that selects an opcode. -/
def Opcode.byte : Opcode → Byte
  | .nop => 0x00
  | .stcycl => 0x01
  | .stmod => 0x05
  | .flush => 0x11
  | .mscnt => 0x17
  | .strow => 0x30
  | .mpg => 0x4A
  | .unpackS32 => 0x60
  | .unpackV2x16 => 0x65
  | .unpackV4x32 => 0x6C
  | .unpackV4x16 => 0x6D
  | .unpackV4x8 => 0x6E

/-- Twelve rows, no two with the same byte. -/
theorem opcodeTable_nodup : opcodeTable.length = 12 ∧ (opcodeTable.map Prod.fst).Nodup := by decide

/-- The table maps exactly one byte to each opcode. -/
theorem opcodeOf_eq_some {cmd : Byte} {o : Opcode} (h : opcodeOf cmd = some o) : cmd = o.byte := by
  simp only [opcodeOf, opcodeTable, List.lookup] at h
  repeat' split at h
  all_goals first
    | (rename_i hc; rw [beq_iff_eq] at hc; cases h; exact hc)
    | (cases h)

@[simp] theorem opcodeOf_byte (o : Opcode) : opcodeOf o.byte = some o := by cases o <;> rfl

/-! ## The decoder -/

theorem numEffOf_ok (num : Byte) : numEffOk (numEffOf num) = true := by
  have := num.isLt
  simp only [numEffOk, numEffOf]
  split
  · simp only [Bool.and_eq_true, decide_eq_true_eq]; omega
  · rfl

theorem mpgNumOf_toNat (num : Byte) : (mpgNumOf num).toNat = if num.toNat ≠ 0 then num.toNat * 8 else 2048 := by
  have := num.isLt
  rw [mpgNumOf, BitVec.toNat_ofNat]
  split <;> omega

theorem mpgNumOf_ok (num : Byte) : mpgNumOk (mpgNumOf num) = true := by
  have := num.isLt
  simp only [mpgNumOk, mpgNumOf_toNat, Bool.and_eq_true, decide_eq_true_eq, beq_iff_eq]
  split <;> omega

theorem mpgAddressOf_toNat (imm : BitVec 16) : (mpgAddressOf imm).toNat = imm.toNat * 8 := by
  have := imm.isLt
  rw [mpgAddressOf, BitVec.toNat_ofNat]
  omega

theorem mpgAddressOf_ok (imm : BitVec 16) : mpgAddressOk (mpgAddressOf imm) = true := by
  simp only [mpgAddressOk, mpgAddressOf_toNat, beq_iff_eq]
  omega

/-- What the command decoder answers is a well-formed command. -/
theorem decodeCommand_ok {h : Word} {i : Instr} (hd : decodeCommand h = .ok i) : i.format = .vifcode ∧ i.wf = true := by
  simp only [decodeCommand] at hd
  split at hd <;> cases hd <;>
    simp [Instr.format, Instr.wf, numEffOf_ok, mpgNumOf_ok, mpgAddressOf_ok]

/-- What the descriptor decoder answers is a well-formed tag. -/
theorem decodeDescriptor_ok (w : Dword) : (decodeDescriptor w).format = .dmatag ∧ (decodeDescriptor w).wf = true := by
  simp only [decodeDescriptor]
  split <;> exact ⟨rfl, rfl⟩

/-- What the decoder answers has the format asked for and is well formed. -/
theorem decode_ok {f : Format} {bs rest : List Byte} {i : Instr} (h : decode f bs = .ok (i, rest)) :
    i.format = f ∧ i.wf = true := by
  unfold decode at h
  split at h
  · split at h
    · rename_i hd; cases h; exact decodeCommand_ok hd
    · cases h
  · cases h; exact decodeDescriptor_ok _
  · cases h

end Sys2Proof
end

