-- ==== Sys2Proof/Laws/Memory.lean ====
section
/-! SUPPORT. The laws of the byte source: a read after a write, and the canonical form kept by every
operation. -/

namespace Sys2Proof.Machine

theorem Memory.byteAt_cons (x : Nat) (v : Byte) (m : Memory) (a : Nat) :
    Memory.byteAt ((x, v) :: m) a = if a = x then v else m.byteAt a := rfl

/-- A position below every listed one holds what unlisted positions hold. -/
theorem Memory.byteAt_of_lt {m : Memory} {a : Nat} (h : ∀ c ∈ m, a < c.1) : m.byteAt a = Memory.unlisted := by
  induction m with
  | nil => rfl
  | cons c m ih =>
    have hc : a < c.1 := h c (by simp)
    rw [Memory.byteAt_cons, if_neg (by omega)]
    exact ih fun d hd => h d (by simp [hd])

/-- Reading the position just written gives the byte written. -/
theorem Memory.byteAt_write_same (m : Memory) (hm : m.wf) (a : Nat) (b : Byte) : (m.write a b).byteAt a = b := by
  induction m with
  | nil =>
    unfold Memory.write
    split
    · simp_all [Memory.byteAt]
    · simp [Memory.byteAt]
  | cons c m ih =>
    obtain ⟨x, v⟩ := c
    obtain ⟨hp, hz⟩ := hm
    rw [List.pairwise_cons] at hp
    have hm' : Memory.wf m := ⟨hp.2, fun d hd => hz d (by simp [hd])⟩
    have hbelow : ∀ a, a ≤ x → Memory.byteAt m a = Memory.unlisted := fun a ha =>
      Memory.byteAt_of_lt fun d hd => by have := hp.1 d hd; simp only at this; omega
    simp only [Memory.write]
    split
    · split
      · rw [Memory.byteAt_cons, if_neg (by omega), hbelow a (by omega)]; simp_all
      · simp [Memory.byteAt_cons]
    · split
      · split
        · rw [hbelow a (by omega)]; simp_all
        · simp [Memory.byteAt_cons]
      · rw [Memory.byteAt_cons, if_neg (by assumption)]
        exact ih hm'

/-- A write leaves every other position alone. -/
theorem Memory.byteAt_write_ne (m : Memory) {a a' : Nat} (b : Byte) (h : a' ≠ a) :
    (m.write a b).byteAt a' = m.byteAt a' := by
  induction m with
  | nil =>
    unfold Memory.write
    split
    · rfl
    · simp [Memory.byteAt, h]
  | cons c m ih =>
    obtain ⟨x, v⟩ := c
    simp only [Memory.write]
    split
    · split
      · rfl
      · rw [Memory.byteAt_cons, if_neg h]
    · split
      · rename_i hx
        subst hx
        split <;> simp [Memory.byteAt_cons, h]
      · rw [Memory.byteAt_cons, Memory.byteAt_cons, ih]

/-- Every position a write lists is the written one or was listed before. -/
theorem Memory.mem_write {m : Memory} {a : Nat} {b : Byte} {c : Host.Cell} (h : c ∈ m.write a b) :
    c = (a, b) ∧ b ≠ 0 ∨ c ∈ m := by
  induction m with
  | nil =>
    unfold Memory.write at h
    split at h
    · simp at h
    · rename_i hb; exact .inl ⟨by simpa using h, hb⟩
  | cons d m ih =>
    obtain ⟨x, v⟩ := d
    unfold Memory.write at h
    split at h
    · split at h
      · exact .inr h
      · rename_i hb
        rcases List.mem_cons.1 h with h | h
        · exact .inl ⟨h, hb⟩
        · exact .inr h
    · split at h
      · split at h
        · exact .inr (List.mem_cons_of_mem _ h)
        · rename_i hb
          rcases List.mem_cons.1 h with h | h
          · exact .inl ⟨h, hb⟩
          · exact .inr (List.mem_cons_of_mem _ h)
      · rcases List.mem_cons.1 h with h | h
        · exact .inr (h ▸ List.mem_cons_self)
        · rcases ih h with h | h
          · exact .inl h
          · exact .inr (List.mem_cons_of_mem _ h)

/-- A write keeps the canonical form. -/
theorem Memory.write_wf (m : Memory) (hm : m.wf) (a : Nat) (b : Byte) : (m.write a b).wf := by
  refine ⟨?_, fun c hc => ?_⟩
  · induction m with
    | nil => unfold Memory.write; split <;> simp
    | cons c m ih =>
      obtain ⟨x, v⟩ := c
      obtain ⟨hp, hz⟩ := hm
      have hp' := List.pairwise_cons.1 hp
      have hm' : Memory.wf m := ⟨hp'.2, fun d hd => hz d (by simp [hd])⟩
      simp only [Memory.write]
      split
      · split
        · exact hp
        · refine List.pairwise_cons.2 ⟨fun d hd => ?_, hp⟩
          rcases List.mem_cons.1 hd with hd | hd
          · subst hd; assumption
          · have := hp'.1 d hd; simp only at this ⊢; omega
      · split
        · rename_i hx
          subst hx
          split
          · exact hp'.2
          · exact List.pairwise_cons.2 ⟨hp'.1, hp'.2⟩
        · refine List.pairwise_cons.2 ⟨fun d hd => ?_, ih hm'⟩
          rcases Memory.mem_write hd with ⟨hd, -⟩ | hd
          · subst hd; simp only; omega
          · exact hp'.1 d hd
  · rcases Memory.mem_write hc with ⟨hc, hb⟩ | hc
    · subst hc; exact hb
    · exact hm.2 c hc

theorem Memory.writeAll_wf (bs : List Byte) (m : Memory) (hm : m.wf) (a : Nat) : (m.writeAll a bs).wf := by
  induction bs generalizing m a with
  | nil => exact hm
  | cons b bs ih => exact ih _ (m.write_wf hm a b) _

theorem Memory.ofBytes_wf (bs : List Byte) : (Memory.ofBytes bs).wf :=
  Memory.writeAll_wf bs [] ⟨List.Pairwise.nil, by simp⟩ 0

theorem Memory.mem_writeAll {bs : List Byte} {m : Memory} {a : Nat} {c : Host.Cell} (h : c ∈ m.writeAll a bs) :
    a ≤ c.1 ∧ c.1 < a + bs.length ∨ c ∈ m := by
  induction bs generalizing m a with
  | nil => exact .inr h
  | cons b bs ih =>
    rcases ih h with h | h
    · exact .inl (by simp only [List.length_cons]; omega)
    · rcases Memory.mem_write h with ⟨h, -⟩ | h
      · subst h; exact .inl (by simp)
      · exact .inr h

theorem Memory.byteAt_writeAll_lt (bs : List Byte) (m : Memory) {a a' : Nat} (h : a' < a) :
    (m.writeAll a bs).byteAt a' = m.byteAt a' := by
  induction bs generalizing m a with
  | nil => rfl
  | cons b bs ih => rw [Memory.writeAll, ih _ (by omega), Memory.byteAt_write_ne m b (by omega)]

/-- A source laid out from a list of bytes holds that list. -/
theorem Memory.byteAt_writeAll (bs : List Byte) (m : Memory) (hm : m.wf) (a i : Nat) (h : i < bs.length) :
    (m.writeAll a bs).byteAt (a + i) = bs[i] := by
  induction bs generalizing m a i with
  | nil => simp at h
  | cons b bs ih =>
    cases i with
    | zero =>
      rw [Memory.writeAll, Memory.byteAt_writeAll_lt _ _ (by omega)]
      exact Memory.byteAt_write_same m hm a b
    | succ i =>
      have := ih (m.write a b) (m.write_wf hm a b) (a + 1) i (by simpa using h)
      rw [Memory.writeAll, show a + (i + 1) = a + 1 + i by omega, this]
      rfl

theorem Memory.byteAt_ofBytes (bs : List Byte) (i : Nat) (h : i < bs.length) : (Memory.ofBytes bs).byteAt i = bs[i] := by
  have := Memory.byteAt_writeAll bs [] ⟨List.Pairwise.nil, by simp⟩ 0 i h
  simpa [Memory.ofBytes] using this

/-- A request over a list of bytes is well formed: its source has exactly those bytes. -/
theorem Request.ofBytes_wf (op : BitVec 3) (bs : List Byte) (p0 n : Nat) : (Request.ofBytes op bs p0 n).wf := by
  refine ⟨Memory.ofBytes_wf bs, fun c hc => ?_⟩
  rcases Memory.mem_writeAll hc with h | h
  · simpa [Request.ofBytes] using h.2
  · simp at h

end Sys2Proof.Machine
end

