-- ==== Sys2Proof/Laws/State.lean ====
section
/-! SUPPORT. What each named update of the state does to each field, one lemma per field per update. -/

namespace Sys2Proof.Machine

@[simp] theorem State.raise_phase (s : State) (e : DecodeError) : (s.raise e).phase = .error := rfl
@[simp] theorem State.raise_op (s : State) (e : DecodeError) : (s.raise e).op = s.op := rfl
@[simp] theorem State.raise_pos (s : State) (e : DecodeError) : (s.raise e).pos = s.pos := rfl
@[simp] theorem State.raise_lim (s : State) (e : DecodeError) : (s.raise e).lim = s.lim := rfl
@[simp] theorem State.raise_limSave (s : State) (e : DecodeError) : (s.raise e).limSave = [] := rfl
@[simp] theorem State.raise_winEnd (s : State) (e : DecodeError) : (s.raise e).winEnd = s.winEnd := rfl
@[simp] theorem State.raise_tagStart (s : State) (e : DecodeError) : (s.raise e).tagStart = s.tagStart := rfl
@[simp] theorem State.raise_tagEnd (s : State) (e : DecodeError) : (s.raise e).tagEnd = s.tagEnd := rfl
@[simp] theorem State.raise_desc (s : State) (e : DecodeError) : (s.raise e).desc = s.desc := rfl
@[simp] theorem State.raise_cmds (s : State) (e : DecodeError) : (s.raise e).cmds = s.cmds := rfl
@[simp] theorem State.raise_tags (s : State) (e : DecodeError) : (s.raise e).tags = s.tags := rfl
@[simp] theorem State.raise_result (s : State) (e : DecodeError) : (s.raise e).result = none := rfl
@[simp] theorem State.raise_err (s : State) (e : DecodeError) : (s.raise e).err = some e := rfl
@[simp] theorem State.raise_req (s : State) (e : DecodeError) : (s.raise e).req = s.req := rfl
@[simp] theorem State.raise_requests (s : State) (e : DecodeError) : (s.raise e).requests = s.requests := rfl
@[simp] theorem State.raise_resetLine (s : State) (e : DecodeError) : (s.raise e).resetLine = s.resetLine := rfl
@[simp] theorem State.raise_sourceChanged (s : State) (e : DecodeError) : (s.raise e).sourceChanged = s.sourceChanged := rfl
@[simp] theorem State.raise_changeEpoch (s : State) (e : DecodeError) : (s.raise e).changeEpoch = s.changeEpoch := rfl

@[simp] theorem State.pushLimit_phase (s : State) (l m : Nat) : (s.pushLimit l m).phase = s.phase := rfl
@[simp] theorem State.pushLimit_op (s : State) (l m : Nat) : (s.pushLimit l m).op = s.op := rfl
@[simp] theorem State.pushLimit_pos (s : State) (l m : Nat) : (s.pushLimit l m).pos = s.pos := rfl
@[simp] theorem State.pushLimit_lim (s : State) (l m : Nat) : (s.pushLimit l m).lim = some (min l m) := rfl
@[simp] theorem State.pushLimit_limSave (s : State) (l m : Nat) : (s.pushLimit l m).limSave = l :: s.limSave := rfl
@[simp] theorem State.pushLimit_winEnd (s : State) (l m : Nat) : (s.pushLimit l m).winEnd = s.winEnd := rfl
@[simp] theorem State.pushLimit_tagStart (s : State) (l m : Nat) : (s.pushLimit l m).tagStart = s.tagStart := rfl
@[simp] theorem State.pushLimit_tagEnd (s : State) (l m : Nat) : (s.pushLimit l m).tagEnd = s.tagEnd := rfl
@[simp] theorem State.pushLimit_desc (s : State) (l m : Nat) : (s.pushLimit l m).desc = s.desc := rfl
@[simp] theorem State.pushLimit_cmds (s : State) (l m : Nat) : (s.pushLimit l m).cmds = s.cmds := rfl
@[simp] theorem State.pushLimit_tags (s : State) (l m : Nat) : (s.pushLimit l m).tags = s.tags := rfl
@[simp] theorem State.pushLimit_result (s : State) (l m : Nat) : (s.pushLimit l m).result = s.result := rfl
@[simp] theorem State.pushLimit_err (s : State) (l m : Nat) : (s.pushLimit l m).err = s.err := rfl
@[simp] theorem State.pushLimit_req (s : State) (l m : Nat) : (s.pushLimit l m).req = s.req := rfl
@[simp] theorem State.pushLimit_requests (s : State) (l m : Nat) : (s.pushLimit l m).requests = s.requests := rfl
@[simp] theorem State.pushLimit_resetLine (s : State) (l m : Nat) : (s.pushLimit l m).resetLine = s.resetLine := rfl
@[simp] theorem State.pushLimit_sourceChanged (s : State) (l m : Nat) : (s.pushLimit l m).sourceChanged = s.sourceChanged := rfl
@[simp] theorem State.pushLimit_changeEpoch (s : State) (l m : Nat) : (s.pushLimit l m).changeEpoch = s.changeEpoch := rfl

@[simp] theorem State.finish_phase (s : State) (v : Entity) (p : Nat) : (s.finish v p).phase = .done := rfl
@[simp] theorem State.finish_op (s : State) (v : Entity) (p : Nat) : (s.finish v p).op = s.op := rfl
@[simp] theorem State.finish_pos (s : State) (v : Entity) (p : Nat) : (s.finish v p).pos = s.pos := rfl
@[simp] theorem State.finish_lim (s : State) (v : Entity) (p : Nat) : (s.finish v p).lim = s.lim := rfl
@[simp] theorem State.finish_limSave (s : State) (v : Entity) (p : Nat) : (s.finish v p).limSave = s.limSave := rfl
@[simp] theorem State.finish_winEnd (s : State) (v : Entity) (p : Nat) : (s.finish v p).winEnd = s.winEnd := rfl
@[simp] theorem State.finish_tagStart (s : State) (v : Entity) (p : Nat) : (s.finish v p).tagStart = s.tagStart := rfl
@[simp] theorem State.finish_tagEnd (s : State) (v : Entity) (p : Nat) : (s.finish v p).tagEnd = s.tagEnd := rfl
@[simp] theorem State.finish_desc (s : State) (v : Entity) (p : Nat) : (s.finish v p).desc = s.desc := rfl
@[simp] theorem State.finish_cmds (s : State) (v : Entity) (p : Nat) : (s.finish v p).cmds = s.cmds := rfl
@[simp] theorem State.finish_tags (s : State) (v : Entity) (p : Nat) : (s.finish v p).tags = s.tags := rfl
@[simp] theorem State.finish_result (s : State) (v : Entity) (p : Nat) : (s.finish v p).result = some (v, p) := rfl
@[simp] theorem State.finish_err (s : State) (v : Entity) (p : Nat) : (s.finish v p).err = s.err := rfl
@[simp] theorem State.finish_req (s : State) (v : Entity) (p : Nat) : (s.finish v p).req = s.req := rfl
@[simp] theorem State.finish_requests (s : State) (v : Entity) (p : Nat) : (s.finish v p).requests = s.requests := rfl
@[simp] theorem State.finish_resetLine (s : State) (v : Entity) (p : Nat) : (s.finish v p).resetLine = s.resetLine := rfl
@[simp] theorem State.finish_sourceChanged (s : State) (v : Entity) (p : Nat) : (s.finish v p).sourceChanged = s.sourceChanged := rfl
@[simp] theorem State.finish_changeEpoch (s : State) (v : Entity) (p : Nat) : (s.finish v p).changeEpoch = s.changeEpoch := rfl

@[simp] theorem State.accept_phase (s : State) (r : Request) : (s.accept r).phase = .busy (startPhase r.op) := rfl
@[simp] theorem State.accept_op (s : State) (r : Request) : (s.accept r).op = some r.op := rfl
@[simp] theorem State.accept_pos (s : State) (r : Request) : (s.accept r).pos = some r.p0 := rfl
@[simp] theorem State.accept_lim (s : State) (r : Request) : (s.accept r).lim = some r.len := rfl
@[simp] theorem State.accept_limSave (s : State) (r : Request) : (s.accept r).limSave = [] := rfl
@[simp] theorem State.accept_winEnd (s : State) (r : Request) : (s.accept r).winEnd = none := rfl
@[simp] theorem State.accept_tagStart (s : State) (r : Request) : (s.accept r).tagStart = none := rfl
@[simp] theorem State.accept_tagEnd (s : State) (r : Request) : (s.accept r).tagEnd = none := rfl
@[simp] theorem State.accept_desc (s : State) (r : Request) : (s.accept r).desc = none := rfl
@[simp] theorem State.accept_cmds (s : State) (r : Request) : (s.accept r).cmds = [] := rfl
@[simp] theorem State.accept_tags (s : State) (r : Request) : (s.accept r).tags = [] := rfl
@[simp] theorem State.accept_result (s : State) (r : Request) : (s.accept r).result = none := rfl
@[simp] theorem State.accept_err (s : State) (r : Request) : (s.accept r).err = none := rfl
@[simp] theorem State.accept_req (s : State) (r : Request) : (s.accept r).req = some r := rfl
@[simp] theorem State.accept_requests (s : State) (r : Request) : (s.accept r).requests = s.requests := rfl
@[simp] theorem State.accept_resetLine (s : State) (r : Request) : (s.accept r).resetLine = s.resetLine := rfl
@[simp] theorem State.accept_sourceChanged (s : State) (r : Request) : (s.accept r).sourceChanged = false := rfl
@[simp] theorem State.accept_changeEpoch (s : State) (r : Request) : (s.accept r).changeEpoch = s.changeEpoch + 1 := rfl

@[simp] theorem State.assertReset_phase (s : State) : (s.assertReset).phase = .idle := rfl
@[simp] theorem State.assertReset_op (s : State) : (s.assertReset).op = none := rfl
@[simp] theorem State.assertReset_pos (s : State) : (s.assertReset).pos = none := rfl
@[simp] theorem State.assertReset_lim (s : State) : (s.assertReset).lim = none := rfl
@[simp] theorem State.assertReset_limSave (s : State) : (s.assertReset).limSave = [] := rfl
@[simp] theorem State.assertReset_winEnd (s : State) : (s.assertReset).winEnd = none := rfl
@[simp] theorem State.assertReset_tagStart (s : State) : (s.assertReset).tagStart = none := rfl
@[simp] theorem State.assertReset_tagEnd (s : State) : (s.assertReset).tagEnd = none := rfl
@[simp] theorem State.assertReset_desc (s : State) : (s.assertReset).desc = none := rfl
@[simp] theorem State.assertReset_cmds (s : State) : (s.assertReset).cmds = [] := rfl
@[simp] theorem State.assertReset_tags (s : State) : (s.assertReset).tags = [] := rfl
@[simp] theorem State.assertReset_result (s : State) : (s.assertReset).result = none := rfl
@[simp] theorem State.assertReset_err (s : State) : (s.assertReset).err = none := rfl
@[simp] theorem State.assertReset_req (s : State) : (s.assertReset).req = none := rfl
@[simp] theorem State.assertReset_requests (s : State) : (s.assertReset).requests = s.requests := rfl
@[simp] theorem State.assertReset_resetLine (s : State) : (s.assertReset).resetLine = false := rfl
@[simp] theorem State.assertReset_sourceChanged (s : State) : (s.assertReset).sourceChanged = false := rfl
@[simp] theorem State.assertReset_changeEpoch (s : State) : (s.assertReset).changeEpoch = s.changeEpoch := rfl

@[simp] theorem State.raise_source (s : State) (e : DecodeError) : (s.raise e).source = s.source := rfl

@[simp] theorem State.pushLimit_source (s : State) (l m : Nat) : (s.pushLimit l m).source = s.source := rfl

@[simp] theorem State.finish_source (s : State) (v : Entity) (p : Nat) : (s.finish v p).source = s.source := rfl

@[simp] theorem State.accept_source (s : State) (r : Request) : (s.accept r).source = r.src := rfl

/-- A byte of the source depends on the accepted request, on whether the source was changed and on the
epoch, and on no other field. -/
theorem State.srcByte_congr {s t : State} (hr : t.req = s.req) (hc : t.sourceChanged = s.sourceChanged)
    (he : t.changeEpoch = s.changeEpoch) (a : Nat) : t.srcByte a = s.srcByte a := by
  simp only [State.srcByte, State.source, hr, hc, he]

/-- With an unchanged source, a byte read is the byte of the request's source. -/
theorem State.srcByte_eq {s : State} {r : Request} (hr : s.req = some r) (hc : s.sourceChanged = false) (a : Nat) :
    s.srcByte a = r.src.byteAt a := by
  simp [State.srcByte, State.source, hr, hc]

end Sys2Proof.Machine
end

