-- ==== Sys2Proof/Laws/Ops.lean ====
section
/-! SUPPORT. What each shared operation can do, said once: if it answers `next t`, then one of these. -/

namespace Sys2Proof.Machine

/-! ## Reading registers -/

@[simp] theorem need_some {α : Type} (r : RegName) (a : α) (k : α → Result) : need r (some a) k = k a := rfl

@[simp] theorem need_none {α : Type} (r : RegName) (k : α → Result) : need r none k = .fault (.noValue r) := rfl

theorem need_eq_next {α : Type} {r : RegName} {v : Option α} {k : α → Result} {t : State}
    (h : need r v k = .next t) : ∃ a, v = some a ∧ k a = .next t := by
  cases v with
  | none => cases h
  | some a => exact ⟨a, rfl, h⟩

theorem popLimit_eq_next {s t : State} {k : State → Result} (h : popLimit s k = .next t) :
    ∃ l rest, s.limSave = l :: rest ∧ k { s with lim := some l, limSave := rest } = .next t := by
  unfold popLimit at h
  split at h
  · rename_i l rest hl; exact ⟨l, rest, hl, h⟩
  · cases h

/-! ## Reading the source -/

@[simp] theorem State.srcBytes_length (s : State) (a k : Nat) : (s.srcBytes a k).length = k := by
  simp [State.srcBytes]

@[simp] theorem State.units_length (s : State) (w q count u : Nat) : (s.units w q count u).length = count := by
  simp [State.units]

theorem State.srcBytes_four (s : State) (a : Nat) :
    s.srcBytes a 4 = [s.srcByte a, s.srcByte (a + 1), s.srcByte (a + 2), s.srcByte (a + 3)] := rfl

theorem State.srcBytes_eight (s : State) (a : Nat) :
    s.srcBytes a 8 = [s.srcByte a, s.srcByte (a + 1), s.srcByte (a + 2), s.srcByte (a + 3), s.srcByte (a + 4),
      s.srcByte (a + 5), s.srcByte (a + 6), s.srcByte (a + 7)] := rfl

/-- With an unchanged source, a read is a read of the request's source. -/
theorem State.memRead_eq {s : State} {r : Request} (hr : s.req = some r) (hc : s.sourceChanged = false) (a k : Nat) :
    s.memRead a k = readLE r.src a k := by
  simp only [State.memRead, State.srcBytes, readLE, State.srcByte_eq hr hc]

/-! ## Delivering what was decoded -/

theorem decodedCommand_cmd1 {s : State} (h : s.phase = .busy .cmd1) (c : Command) (p : Nat) :
    decodedCommand c p s = .next { s with pos := some p, result := some (.command c, p), phase := .done } := by
  simp [decodedCommand, h, State.finish]

theorem decodedCommand_tloop {s : State} (h : s.phase = .busy .tloop) (c : Command) (p : Nat) :
    decodedCommand c p s = .next { s with pos := some p, cmds := s.cmds ++ [c] } := by
  simp [decodedCommand, h]

theorem decodedCommand_eq_next {c : Command} {p : Nat} {s t : State} (h : decodedCommand c p s = .next t) :
    (s.phase = .busy .cmd1 ∧ t = { s with pos := some p, result := some (.command c, p), phase := .done }) ∨
    (s.phase = .busy .tloop ∧ t = { s with pos := some p, cmds := s.cmds ++ [c] }) := by
  unfold decodedCommand at h
  split at h
  · rename_i hp; cases h; exact .inl ⟨hp, rfl⟩
  · rename_i hp; cases h; exact .inr ⟨hp, rfl⟩
  · cases h

theorem decodedDescriptor_desc1 {s : State} {p : Nat} (h : s.phase = .busy .desc1) (hp : s.pos = some p)
    (d : Descriptor) :
    decodedDescriptor d s =
      .next { s with pos := some (p + 8), result := some (.descriptor d, p + 8), phase := .done } := by
  simp [decodedDescriptor, h, hp, State.finish]

theorem decodedDescriptor_tdesc {s : State} {p l : Nat} (h : s.phase = .busy .tdesc) (hp : s.pos = some p)
    (hl : s.lim = some l) (d : Descriptor) :
    decodedDescriptor d s =
      .next { s with
        tagStart := some p, desc := some d, tagEnd := some (p + 8 + 16 * d.qwordCount.toNat), pos := some (p + 8)
        cmds := [], limSave := l :: s.limSave, lim := some (min l (p + 8 + 16 * d.qwordCount.toNat))
        phase := .busy .tloop } := by
  simp [decodedDescriptor, h, hp, hl, State.pushLimit]

theorem decodedDescriptor_eq_next {d : Descriptor} {s t : State} (h : decodedDescriptor d s = .next t) :
    ∃ p, s.pos = some p ∧
      ((s.phase = .busy .desc1 ∧
        t = { s with pos := some (p + 8), result := some (.descriptor d, p + 8), phase := .done }) ∨
      (s.phase = .busy .tdesc ∧ ∃ l, s.lim = some l ∧
        t = { s with
          tagStart := some p, desc := some d, tagEnd := some (p + 8 + 16 * d.qwordCount.toNat), pos := some (p + 8)
          cmds := [], limSave := l :: s.limSave, lim := some (min l (p + 8 + 16 * d.qwordCount.toNat))
          phase := .busy .tloop })) := by
  obtain ⟨p, hp, h⟩ := need_eq_next h
  refine ⟨p, hp, ?_⟩
  split at h
  · rename_i hph; cases h; exact .inl ⟨hph, rfl⟩
  · rename_i hph
    obtain ⟨l, hl, h⟩ := need_eq_next h
    cases h
    exact .inr ⟨hph, l, hl, rfl⟩
  · cases h

/-! ## Operand forms -/

theorem headerOnly_eq_next {c : Command} {s t : State} (h : headerOnly c s = .next t) :
    ∃ p, s.pos = some p ∧ decodedCommand c (p + 4) s = .next t := need_eq_next h

theorem withPayload_eq_next {k : Nat} {c : Nat → Command} {s t : State} (h : withPayload k c s = .next t) :
    ∃ p l, s.pos = some p ∧ s.lim = some l ∧
      ((p + 4 + k ≤ l ∧ decodedCommand (c (p + 4)) (p + 4 + k) s = .next t) ∨
      (l < p + 4 + k ∧ t = s.raise (.unexpectedEnd (p + 4) .command))) := by
  obtain ⟨p, hp, h⟩ := need_eq_next h
  obtain ⟨l, hl, h⟩ := need_eq_next h
  refine ⟨p, l, hp, hl, ?_⟩
  split at h
  · exact .inl ⟨by assumption, h⟩
  · cases h; exact .inr ⟨by omega, rfl⟩

/-! ## The meanings -/

/-- The record a tag instruction carries. -/
def tagRecord : Instr → Option Descriptor
  | .tagRefe q p c i a => some ⟨q, p, c, .refe, i, a⟩
  | .tagCnt q p c i a => some ⟨q, p, c, .cnt, i, a⟩
  | .tagNext q p c i a => some ⟨q, p, c, .next, i, a⟩
  | .tagRef q p c i a => some ⟨q, p, c, .ref, i, a⟩
  | .tagRefs q p c i a => some ⟨q, p, c, .refs, i, a⟩
  | .tagCall q p c i a => some ⟨q, p, c, .call, i, a⟩
  | .tagRet q p c i a => some ⟨q, p, c, .ret, i, a⟩
  | .tagEnd q p c i a => some ⟨q, p, c, .end_, i, a⟩
  | _ => none

/-- The meaning of a tag instruction is the delivery of its record. -/
theorem exec_of_tagRecord {i : Instr} {d : Descriptor} (h : tagRecord i = some d) (s : State) :
    exec i s = decodedDescriptor d s := by
  cases i <;> cases h <;> rfl

theorem tagRecord_isSome {i : Instr} (h : i.format = .dmatag) : ∃ d, tagRecord i = some d := by
  cases i <;> first | exact ⟨_, rfl⟩ | cases h

/-- The payload bytes of a command instruction (spec/30_encoding.md R61). -/
def payloadBytes : Instr → Nat
  | .strow => 16
  | .mpg _ num => num.toNat
  | .unpackS32 _ _ _ n => 4 * n
  | .unpackV2x16 _ _ _ n => 4 * n
  | .unpackV4x32 _ _ _ n => 16 * n
  | .unpackV4x16 _ _ _ n => 8 * n
  | .unpackV4x8 _ _ _ n => 4 * n
  | .nop | .stcycl .. | .stmod .. | .flush | .mscnt | .tagRefe .. | .tagCnt .. | .tagNext .. | .tagRef .. | .tagRefs ..
  | .tagCall .. | .tagRet .. | .tagEnd .. => 0

/-- The record a command instruction makes of the payload at `q`. -/
def commandRecord (s : State) (q : Nat) : Instr → Command
  | .nop | .tagRefe .. | .tagCnt .. | .tagNext .. | .tagRef .. | .tagRefs .. | .tagCall .. | .tagRet .. | .tagEnd .. => .nop
  | .stcycl cl wl => .stcycl cl wl
  | .stmod mode => .stmod mode
  | .flush => .flush
  | .mscnt => .mscnt
  | .strow => .strow (s.payloadWord q 0) (s.payloadWord q 1) (s.payloadWord q 2) (s.payloadWord q 3)
  | .mpg address num => .mpg address num (s.units 8 q num.toNat 1)
  | .unpackS32 a z t n => .unpackS32 a z t (s.units 32 q n 4)
  | .unpackV2x16 a z t n => .unpackV2x16 a z t (s.units 16 q (n * 2) 2)
  | .unpackV4x32 a z t n => .unpackV4x32 a z t (s.units 32 q (n * 4) 4)
  | .unpackV4x16 a z t n => .unpackV4x16 a z t (s.units 16 q (n * 4) 2)
  | .unpackV4x8 a z t n => .unpackV4x8 a z t (s.units 8 q (n * 4) 1)

/-- The record of a well-formed command instruction is well formed and as long as its bytes. -/
theorem commandRecord_ok (s : State) (q : Nat) {i : Instr} (hf : i.format = .vifcode) (hw : i.wf = true) :
    (commandRecord s q i).wf ∧ (commandRecord s q i).size = 4 + payloadBytes i := by
  cases i with
  | nop | stcycl | stmod | flush | mscnt | strow => exact ⟨trivial, rfl⟩
  | mpg a n =>
    simp only [Instr.wf, Bool.and_eq_true] at hw
    exact ⟨⟨hw.1, hw.2, State.units_length ..⟩, rfl⟩
  | unpackS32 a z t n =>
    simp only [Instr.wf] at hw
    simp only [commandRecord, Command.wf, Command.size, State.units_length, payloadBytes]
    exact ⟨⟨n, hw, rfl⟩, trivial⟩
  | unpackV2x16 a z t n | unpackV4x32 a z t n | unpackV4x16 a z t n | unpackV4x8 a z t n =>
    simp only [Instr.wf] at hw
    simp only [commandRecord, Command.wf, Command.size, State.units_length, payloadBytes]
    exact ⟨⟨n, hw, rfl⟩, by omega⟩
  | tagRefe | tagCnt | tagNext | tagRef | tagRefs | tagCall | tagRet | tagEnd => cases hf

/-- A command's meaning is one of the two operand forms, applied to its record. -/
theorem exec_form {i : Instr} (hf : i.format = .vifcode) (s : State) :
    (payloadBytes i = 0 ∧ ∃ c, exec i s = headerOnly c s ∧ ∀ q, commandRecord s q i = c) ∨
      exec i s = withPayload (payloadBytes i) (fun q => commandRecord s q i) s := by
  cases i with
  | nop | stcycl | stmod | flush | mscnt => exact .inl ⟨rfl, _, rfl, fun _ => rfl⟩
  | strow | mpg | unpackS32 | unpackV2x16 | unpackV4x32 | unpackV4x16 | unpackV4x8 => exact .inr rfl
  | tagRefe | tagCnt | tagNext | tagRef | tagRefs | tagCall | tagRet | tagEnd => cases hf

/-- EVERYTHING A COMMAND CAN DO: with the header at `p` and the limit `l`, its record is delivered if
the payload fits, and an error is raised at the payload's first byte if it does not. -/
theorem exec_command {i : Instr} (hf : i.format = .vifcode) {s : State} {p l : Nat} (hp : s.pos = some p)
    (hl : s.lim = some l) (hh : p + 4 ≤ l) :
    exec i s =
      if p + 4 + payloadBytes i ≤ l then decodedCommand (commandRecord s (p + 4) i) (p + 4 + payloadBytes i) s
      else .next (s.raise (.unexpectedEnd (p + 4) .command)) := by
  rcases exec_form hf s with ⟨h0, c, he, hc⟩ | he
  · rw [he, h0, if_pos (by omega), hc, headerOnly, hp, need_some, Nat.add_zero]
  · rw [he, withPayload, hp, need_some, hl, need_some]

/-- What a command's meaning does in any state in which it answers. -/
theorem exec_command_eq_next {i : Instr} (hf : i.format = .vifcode) {s t : State} (h : exec i s = .next t) :
    ∃ p, s.pos = some p ∧
      (decodedCommand (commandRecord s (p + 4) i) (p + 4 + payloadBytes i) s = .next t ∨
        t = s.raise (.unexpectedEnd (p + 4) .command)) := by
  rcases exec_form hf s with ⟨h0, c, he, hc⟩ | he
  · obtain ⟨p, hp, h⟩ := headerOnly_eq_next (he ▸ h)
    exact ⟨p, hp, .inl (by rw [h0, hc]; exact h)⟩
  · obtain ⟨p, l, hp, -, ⟨-, h⟩ | ⟨-, h⟩⟩ := withPayload_eq_next (he ▸ h)
    · exact ⟨p, hp, .inl h⟩
    · exact ⟨p, hp, .inr h⟩

end Sys2Proof.Machine
end

