-- ==== Sys2Proof/Laws/PerInstr.lean ====
section
/-! SUPPORT. The per-instruction family `EncodeLength`. -/

namespace Sys2Proof.Laws

/-- An instruction's encoding has the length of its wire format (spec/30_encoding.md R47). -/
def EncodeLength.Statement (i : Instr) : Prop := (encode i).length = i.format.size

theorem EncodeLength.nop : EncodeLength.Statement .nop := leBytes_length _ _
theorem EncodeLength.stcycl (cl wl : BitVec 8) :
    EncodeLength.Statement (.stcycl cl wl) := leBytes_length _ _
theorem EncodeLength.stmod (m : BitVec 2) :
    EncodeLength.Statement (.stmod m) := leBytes_length _ _
theorem EncodeLength.flush : EncodeLength.Statement .flush := leBytes_length _ _
theorem EncodeLength.mscnt : EncodeLength.Statement .mscnt := leBytes_length _ _
theorem EncodeLength.strow : EncodeLength.Statement .strow := leBytes_length _ _
theorem EncodeLength.mpg (a : BitVec 19) (n : BitVec 12) :
    EncodeLength.Statement (.mpg a n) := leBytes_length _ _
theorem EncodeLength.unpackS32 (a : BitVec 10) (z t : Bool) (n : Nat) :
    EncodeLength.Statement (.unpackS32 a z t n) := leBytes_length _ _
theorem EncodeLength.unpackV2x16 (a : BitVec 10) (z t : Bool) (n : Nat) :
    EncodeLength.Statement (.unpackV2x16 a z t n) := leBytes_length _ _
theorem EncodeLength.unpackV4x32 (a : BitVec 10) (z t : Bool) (n : Nat) :
    EncodeLength.Statement (.unpackV4x32 a z t n) := leBytes_length _ _
theorem EncodeLength.unpackV4x16 (a : BitVec 10) (z t : Bool) (n : Nat) :
    EncodeLength.Statement (.unpackV4x16 a z t n) := leBytes_length _ _
theorem EncodeLength.unpackV4x8 (a : BitVec 10) (z t : Bool) (n : Nat) :
    EncodeLength.Statement (.unpackV4x8 a z t n) := leBytes_length _ _
theorem EncodeLength.tagRefe (q : BitVec 16) (p : BitVec 10) (c : PriorityControl) (i : Bool) (a : Word) :
    EncodeLength.Statement (.tagRefe q p c i a) := leBytes_length _ _
theorem EncodeLength.tagCnt (q : BitVec 16) (p : BitVec 10) (c : PriorityControl) (i : Bool) (a : Word) :
    EncodeLength.Statement (.tagCnt q p c i a) := leBytes_length _ _
theorem EncodeLength.tagNext (q : BitVec 16) (p : BitVec 10) (c : PriorityControl) (i : Bool) (a : Word) :
    EncodeLength.Statement (.tagNext q p c i a) := leBytes_length _ _
theorem EncodeLength.tagRef (q : BitVec 16) (p : BitVec 10) (c : PriorityControl) (i : Bool) (a : Word) :
    EncodeLength.Statement (.tagRef q p c i a) := leBytes_length _ _
theorem EncodeLength.tagRefs (q : BitVec 16) (p : BitVec 10) (c : PriorityControl) (i : Bool) (a : Word) :
    EncodeLength.Statement (.tagRefs q p c i a) := leBytes_length _ _
theorem EncodeLength.tagCall (q : BitVec 16) (p : BitVec 10) (c : PriorityControl) (i : Bool) (a : Word) :
    EncodeLength.Statement (.tagCall q p c i a) := leBytes_length _ _
theorem EncodeLength.tagRet (q : BitVec 16) (p : BitVec 10) (c : PriorityControl) (i : Bool) (a : Word) :
    EncodeLength.Statement (.tagRet q p c i a) := leBytes_length _ _
theorem EncodeLength.tagEnd (q : BitVec 16) (p : BitVec 10) (c : PriorityControl) (i : Bool) (a : Word) :
    EncodeLength.Statement (.tagEnd q p c i a) := leBytes_length _ _

end Sys2Proof.Laws
end

