-- ==== Sys2Proof/Laws/Step.lean ====
section
/-! SUPPORT. What one step can do, phase by phase, said once. -/

namespace Sys2Proof.Machine

/-! ## The step in each phase -/

theorem step_of_reset {s : State} (h : s.resetLine = true) : step s = .next s.assertReset := by
  simp [step, stepWith, h]

theorem step_of_resting {s : State} (h : s.resetLine = false) (hr : s.Resting) : step s = stepResting s := by
  rcases hr with hp | hp | hp <;> simp [step, stepWith, h, hp]

theorem step_desc1 {s : State} (h : s.resetLine = false) (hp : s.phase = .busy .desc1) :
    step s = fetch .dmatag exec s := by simp [step, stepWith, h, hp]

theorem step_cmd1 {s : State} (h : s.resetLine = false) (hp : s.phase = .busy .cmd1) :
    step s = fetch .vifcode exec s := by simp [step, stepWith, h, hp]

theorem step_frame {s : State} (h : s.resetLine = false) (hp : s.phase = .busy .frame) : step s = stepFrame s := by
  simp [step, stepWith, h, hp]

theorem step_ploop {s : State} (h : s.resetLine = false) (hp : s.phase = .busy .ploop) : step s = stepWindow s := by
  simp [step, stepWith, h, hp]

theorem step_tdesc {s : State} (h : s.resetLine = false) (hp : s.phase = .busy .tdesc) :
    step s = fetch .dmatag exec s := by simp [step, stepWith, h, hp]

theorem step_tloop {s : State} (h : s.resetLine = false) (hp : s.phase = .busy .tloop) :
    step s = stepRegion exec s := by simp [step, stepWith, h, hp]

theorem step_pad {s : State} (h : s.resetLine = false) (hp : s.phase = .busy .pad) : step s = stepPadding s := by
  simp [step, stepWith, h, hp]

/-- Before the region's end a command is fetched; at it the region is closed. -/
theorem stepRegion_eq {s : State} {p e : Nat} (hp : s.pos = some p) (he : s.tagEnd = some e)
    (run : Instr → State → Result) : stepRegion run s = if p < e then fetch .vifcode run s else stepRegionEnd s := by
  simp [stepRegion, hp, he]

theorem step_at_command {s : State} {p l : Nat} (h : s.AtCommand p l) : step s = fetch .vifcode exec s := by
  obtain ⟨hr, hp, -, hph | ⟨hph, e, he, hlt⟩⟩ := h
  · exact step_cmd1 hr hph
  · rw [step_tloop hr hph, stepRegion_eq hp he, if_pos hlt]

theorem step_at_descriptor {s : State} {p l : Nat} (h : s.AtDescriptor p l) : step s = fetch .dmatag exec s := by
  obtain ⟨hr, -, -, hph | hph⟩ := h
  · exact step_desc1 hr hph
  · exact step_tdesc hr hph

/-! ## Fetching -/

theorem fetch_short {f : Format} {s : State} {p l : Nat} (hp : s.pos = some p) (hl : s.lim = some l)
    (h : l < p + f.size) (run : Instr → State → Result) :
    fetch f run s = .next (s.raise (.unexpectedEnd p (formatLayer f))) := by
  simp [fetch, hp, hl, show ¬ p + f.size ≤ l by omega]

theorem fetch_ok {f : Format} {s : State} {p l : Nat} {i : Instr} {rest : List Byte} (hp : s.pos = some p)
    (hl : s.lim = some l) (h : p + f.size ≤ l) (hd : decode f (s.srcBytes p f.size) = .ok (i, rest))
    (run : Instr → State → Result) : fetch f run s = run i s := by
  simp [fetch, hp, hl, h, hd]

theorem fetch_rejected {f : Format} {s : State} {p l : Nat} {e : Rejection} (hp : s.pos = some p)
    (hl : s.lim = some l) (h : p + f.size ≤ l) (hd : decode f (s.srcBytes p f.size) = .error e)
    (run : Instr → State → Result) : fetch f run s = .next (s.raise (rejectionError p e)) := by
  simp [fetch, hp, hl, h, hd]

/-- A fetch whose item does not fit raises; one whose item fits runs a well-formed instruction of the
format asked for, or raises the decoder's rejection. -/
theorem fetch_eq_next {f : Format} {s t : State} {run : Instr → State → Result} (h : fetch f run s = .next t) :
    ∃ p l, s.pos = some p ∧ s.lim = some l ∧
      ((l < p + f.size ∧ t = s.raise (.unexpectedEnd p (formatLayer f))) ∨
      (p + f.size ≤ l ∧ ∃ e, decode f (s.srcBytes p f.size) = .error e ∧ t = s.raise (rejectionError p e)) ∨
      (p + f.size ≤ l ∧ ∃ i rest, decode f (s.srcBytes p f.size) = .ok (i, rest) ∧ i.format = f ∧ i.wf = true ∧
        run i s = .next t)) := by
  obtain ⟨p, hp, h⟩ := need_eq_next h
  obtain ⟨l, hl, h⟩ := need_eq_next h
  refine ⟨p, l, hp, hl, ?_⟩
  split at h
  · rename_i hle
    split at h
    · rename_i i rest hd
      exact .inr (.inr ⟨hle, i, rest, hd, (decode_ok hd).1, (decode_ok hd).2, h⟩)
    · rename_i e hd
      cases h
      exact .inr (.inl ⟨hle, e, hd, rfl⟩)
  · cases h
    exact .inl ⟨by omega, rfl⟩

/-- A descriptor word is never rejected: every one of the `2^64` words is legal (spec/30_encoding.md R52). -/
theorem decode_dmatag_srcBytes (s : State) (p : Nat) :
    ∃ w, decode .dmatag (s.srcBytes p 8) = .ok (decodeDescriptor w, []) := ⟨_, rfl⟩

/-- A command header of 4 bytes is rejected only for its opcode byte. -/
theorem decode_vifcode_error {s : State} {p : Nat} {e : Rejection}
    (h : decode .vifcode (s.srcBytes p 4) = .error e) : ∃ cmd, e = .unknownOpcode cmd := by
  rw [State.srcBytes_four] at h
  simp only [decode] at h
  split at h
  · cases h
  · rename_i hd
    cases h
    simp only [decodeCommand] at hd
    split at hd <;> cases hd
    exact ⟨_, rfl⟩

/-! ## The phases that fetch nothing -/

theorem stepResting_eq_next {s t : State} (h : stepResting s = .next t) :
    (s.requests = [] ∧ t = s) ∨
    ∃ r rest, s.requests = r :: rest ∧
      ((r.acceptable ∧ t = { s with requests := rest }.accept r) ∨ (¬ r.acceptable ∧ t = { s with requests := rest })) := by
  unfold stepResting at h
  split at h
  · rename_i hr; cases h; exact .inl ⟨hr, rfl⟩
  · rename_i r rest hr
    split at h
    · rename_i ha; cases h; exact .inr ⟨r, rest, hr, .inl ⟨ha, rfl⟩⟩
    · rename_i ha; cases h; exact .inr ⟨r, rest, hr, .inr ⟨ha, rfl⟩⟩

theorem stepFrame_eq_next {s t : State} (h : stepFrame s = .next t) :
    ∃ op p l, s.op = some op ∧ s.pos = some p ∧ s.lim = some l ∧
      ((op.toNat = 3 ∧ ∃ r, s.req = some r ∧ t = openWindow p (p + r.n) l s) ∨
      (op.toNat = 4 ∧ p + 4 ≤ l ∧ t = openWindow (p + 4) (p + 4 + 16 * s.memRead p 4) l s) ∨
      (op.toNat = 4 ∧ l < p + 4 ∧ t = s.raise (.unexpectedEnd p .packet))) := by
  obtain ⟨op, ho, h⟩ := need_eq_next h
  obtain ⟨p, hp, h⟩ := need_eq_next h
  obtain ⟨l, hl, h⟩ := need_eq_next h
  refine ⟨op, p, l, ho, hp, hl, ?_⟩
  split at h
  · rename_i h3
    obtain ⟨r, hr, h⟩ := need_eq_next h
    cases h
    exact .inl ⟨h3, r, hr, rfl⟩
  · rename_i h4
    split at h
    · cases h; exact .inr (.inl ⟨h4, by assumption, rfl⟩)
    · cases h; exact .inr (.inr ⟨h4, by omega, rfl⟩)
  · cases h

theorem stepWindow_eq_next {s t : State} (h : stepWindow s = .next t) :
    ∃ p w, s.pos = some p ∧ s.winEnd = some w ∧
      ((p < w ∧ t = { s with phase := .busy .tdesc }) ∨
      (w ≤ p ∧ ∃ l rest, s.limSave = l :: rest ∧
        t = { s with lim := some l, limSave := rest, result := some (.packet s.tags, p), phase := .done })) := by
  obtain ⟨p, hp, h⟩ := need_eq_next h
  obtain ⟨w, hw, h⟩ := need_eq_next h
  refine ⟨p, w, hp, hw, ?_⟩
  split at h
  · cases h; exact .inl ⟨by assumption, rfl⟩
  · obtain ⟨l, rest, hl, h⟩ := popLimit_eq_next h
    cases h
    exact .inr ⟨by omega, l, rest, hl, rfl⟩

theorem stepRegionEnd_eq_next {s t : State} (h : stepRegionEnd s = .next t) :
    ∃ p op d l rest, s.pos = some p ∧ s.op = some op ∧ s.desc = some d ∧ s.limSave = l :: rest ∧
      ((op.toNat = 2 ∧
        t = { s with lim := some l, limSave := rest, result := some (.tag ⟨d, s.cmds⟩, p), phase := .done }) ∨
      (op.toNat ≠ 2 ∧
        t = { s with
          lim := some l, limSave := rest, tags := s.tags ++ [⟨d, s.cmds⟩]
          phase := .busy (afterTag (chainClass d.id)) })) := by
  obtain ⟨p, hp, h⟩ := need_eq_next h
  obtain ⟨op, ho, h⟩ := need_eq_next h
  obtain ⟨d, hd, h⟩ := need_eq_next h
  obtain ⟨l, rest, hl, h⟩ := popLimit_eq_next h
  refine ⟨p, op, d, l, rest, hp, ho, hd, hl, ?_⟩
  simp only at h
  split at h
  · cases h; exact .inl ⟨by assumption, rfl⟩
  · cases h; exact .inr ⟨by assumption, rfl⟩

theorem stepPadding_eq_next {s t : State} (h : stepPadding s = .next t) :
    ∃ p l w, s.pos = some p ∧ s.lim = some l ∧ s.winEnd = some w ∧
      ((p + (w - p) ≤ l ∧ t = { s with pos := some (p + (w - p)), phase := .busy .ploop }) ∨
      (l < p + (w - p) ∧ t = s.raise (.unexpectedEnd p .packet))) := by
  obtain ⟨p, hp, h⟩ := need_eq_next h
  obtain ⟨l, hl, h⟩ := need_eq_next h
  obtain ⟨w, hw, h⟩ := need_eq_next h
  refine ⟨p, l, w, hp, hl, hw, ?_⟩
  split at h
  · cases h; exact .inl ⟨by assumption, rfl⟩
  · cases h; exact .inr ⟨by omega, rfl⟩

/-! ## One step -/

/-- EVERYTHING A STEP CAN DO. -/
theorem step_eq_next {s t : State} (h : step s = .next t) :
    (s.resetLine = true ∧ t = s.assertReset) ∨
    (s.resetLine = false ∧
      ((s.Resting ∧ stepResting s = .next t) ∨
      ((s.phase = .busy .desc1 ∨ s.phase = .busy .tdesc) ∧ fetch .dmatag exec s = .next t) ∨
      (s.phase = .busy .cmd1 ∧ fetch .vifcode exec s = .next t) ∨
      (s.phase = .busy .frame ∧ stepFrame s = .next t) ∨
      (s.phase = .busy .ploop ∧ stepWindow s = .next t) ∨
      (s.phase = .busy .tloop ∧ ∃ p e, s.pos = some p ∧ s.tagEnd = some e ∧
        ((p < e ∧ fetch .vifcode exec s = .next t) ∨ (e ≤ p ∧ stepRegionEnd s = .next t))) ∨
      (s.phase = .busy .pad ∧ stepPadding s = .next t))) := by
  cases hr : s.resetLine with
  | true => rw [step_of_reset hr] at h; cases h; exact .inl ⟨rfl, rfl⟩
  | false =>
    refine .inr ⟨rfl, ?_⟩
    rcases hph : s.phase with _ | sub | _ | _
    · have hrest : s.Resting := .inl hph
      exact .inl ⟨hrest, by rw [← step_of_resting hr hrest, h]⟩
    · rcases sub with _ | _ | _ | _ | _ | _ | _
      · exact .inr (.inl ⟨.inl rfl, by rw [← step_desc1 hr hph, h]⟩)
      · exact .inr (.inr (.inl ⟨rfl, by rw [← step_cmd1 hr hph, h]⟩))
      · exact .inr (.inr (.inr (.inl ⟨rfl, by rw [← step_frame hr hph, h]⟩)))
      · exact .inr (.inr (.inr (.inr (.inl ⟨rfl, by rw [← step_ploop hr hph, h]⟩))))
      · exact .inr (.inl ⟨.inr rfl, by rw [← step_tdesc hr hph, h]⟩)
      · refine .inr (.inr (.inr (.inr (.inr (.inl ⟨rfl, ?_⟩)))))
        rw [step_tloop hr hph] at h
        obtain ⟨p, hp, h⟩ := need_eq_next h
        obtain ⟨e, he, h⟩ := need_eq_next h
        refine ⟨p, e, hp, he, ?_⟩
        split at h
        · exact .inl ⟨by assumption, h⟩
        · exact .inr ⟨by omega, h⟩
      · exact .inr (.inr (.inr (.inr (.inr (.inr ⟨rfl, by rw [← step_pad hr hph, h]⟩)))))
    · have hrest : s.Resting := .inr (.inl hph)
      exact .inl ⟨hrest, by rw [← step_of_resting hr hrest, h]⟩
    · have hrest : s.Resting := .inr (.inr hph)
      exact .inl ⟨hrest, by rw [← step_of_resting hr hrest, h]⟩

end Sys2Proof.Machine
end

