-- ==== Sys2Proof/Tests/Slice0.lean ====
section
/-! SUPPORT. Tests. Expected results are those of spec/95_test_vectors.md (the row is named beside each
test) or written out from the encoding tables of spec/30_encoding.md. At the end, for every statement
with hypotheses, a state that meets them. -/

namespace Sys2Proof.Tests

open Sys2Proof Sys2Proof.Machine

/-! ## WellFormed: one ill-formed term for each check -/

theorem test_wf_mpg_address_not_multiple_of_8 : Instr.wf (.mpg 4 8) = false := by decide
theorem test_wf_mpg_num_not_multiple_of_8 : Instr.wf (.mpg 8 12) = false := by decide
theorem test_wf_mpg_num_zero : Instr.wf (.mpg 8 0) = false := by decide
theorem test_wf_mpg_num_too_long : Instr.wf (.mpg 8 2056) = false := by decide
theorem test_wf_unpack_none : Instr.wf (.unpackS32 0 false false 0) = false := by decide
theorem test_wf_unpack_too_many : Instr.wf (.unpackV4x8 0 false false 257) = false := by decide
theorem test_wf_accepts_the_longest : Instr.wf (.mpg 0x7FFF8 2048) = true ∧ Instr.wf (.unpackV4x32 0 false true 256) = true := by decide

/-! ## Decode: words written out from R54 to R66 and R48 to R51 -/

theorem test_decode_nop : decode .vifcode [0xFF, 0xFF, 0xFF, 0x00] = .ok (.nop, []) := by decide
theorem test_decode_stcycl : decode .vifcode [0x04, 0x01, 0xFF, 0x01] = .ok (.stcycl 4 1, []) := by decide
theorem test_decode_stmod : decode .vifcode [0xFE, 0xFF, 0x00, 0x05] = .ok (.stmod 2, []) := by decide
theorem test_decode_flush : decode .vifcode [0x00, 0x00, 0x00, 0x11, 0xAA] = .ok (.flush, [0xAA]) := by decide
theorem test_decode_mscnt : decode .vifcode [0x00, 0x00, 0x00, 0x17] = .ok (.mscnt, []) := by decide
theorem test_decode_strow : decode .vifcode [0xFF, 0xFF, 0x05, 0x30] = .ok (.strow, []) := by decide
theorem test_decode_mpg : decode .vifcode [0xFF, 0xFF, 0x00, 0x4A] = .ok (.mpg 0x7FFF8 2048, []) := by decide
theorem test_decode_mpg_most : decode .vifcode [0x01, 0x00, 0xFF, 0x4A] = .ok (.mpg 8 2040, []) := by decide
theorem test_decode_unpack_s_32 : decode .vifcode [0xFF, 0xC3, 0x01, 0x60] = .ok (.unpackS32 0x3FF true true 1, []) := by
  decide
theorem test_decode_unpack_v2_16 : decode .vifcode [0x05, 0x40, 0x02, 0x65] = .ok (.unpackV2x16 5 true false 2, []) := by
  decide
theorem test_decode_unpack_v4_32 : decode .vifcode [0x00, 0x80, 0x00, 0x6C] = .ok (.unpackV4x32 0 false true 256, []) := by
  decide
theorem test_decode_unpack_v4_16 : decode .vifcode [0x00, 0x3C, 0xFF, 0x6D] = .ok (.unpackV4x16 0 false false 255, []) := by
  decide
theorem test_decode_unpack_v4_8 : decode .vifcode [0x23, 0x01, 0x03, 0x6E] = .ok (.unpackV4x8 0x123 false false 3, []) := by
  decide
theorem test_decode_unknown_bit_7 : decode .vifcode [0x00, 0x00, 0x00, 0x80] = .error (.unknownOpcode 0x80) := by decide
theorem test_decode_short_header : decode .vifcode [0x00, 0x00, 0x00] = .error (.short .vifcode) := by decide
theorem test_decode_refe : decode .dmatag [0, 0, 0xFF, 0x03, 0, 0, 0, 0] = .ok (.tagRefe 0 0x3FF .noEffect false 0, []) := by
  decide
theorem test_decode_cnt : decode .dmatag [5, 0, 0, 0x14, 0, 0, 0, 0] = .ok (.tagCnt 5 0 .reserved false 0, []) := by decide
theorem test_decode_next : decode .dmatag [0, 1, 0, 0x28, 0, 0, 0, 0] = .ok (.tagNext 256 0 .disabled false 0, []) := by decide
theorem test_decode_ref : decode .dmatag [2, 0, 0, 0x3C, 0, 0x30, 0, 0] = .ok (.tagRef 2 0 .enabled false 0x3000, []) := by
  decide
theorem test_decode_refs : decode .dmatag [1, 0, 0, 0x40, 1, 2, 3, 4] = .ok (.tagRefs 1 0 .noEffect false 0x04030201, []) := by
  decide
theorem test_decode_call : decode .dmatag [0, 0, 0, 0x50, 0, 0x20, 0, 0] = .ok (.tagCall 0 0 .noEffect false 0x2000, []) := by
  decide
theorem test_decode_ret : decode .dmatag [1, 0, 0, 0xE0, 0, 0, 0, 0] = .ok (.tagRet 1 0 .noEffect true 0, []) := by decide
theorem test_decode_end : decode .dmatag [0x34, 0x12, 0xFF, 0xFF, 0x78, 0x56, 0x34, 0x12] =
    .ok (.tagEnd 0x1234 0x3FF .enabled true 0x12345678, []) := by decide
theorem test_decode_short_descriptor : decode .dmatag [0, 0, 0, 0, 0, 0, 0] = .error (.short .dmatag) := by decide

/-! ## One step of each instruction -/

/-- The state after a step, for reading a field of it. -/
def next (s : State) : State :=
  match step s with
  | .next t => t
  | _ => s

/-- A step from `s` answers a next state. -/
def steps (s : State) : Bool :=
  match step s with
  | .next _ => true
  | _ => false

/-- `steps` is the statements' hypothesis `step s = .next t`, with `next s` for `t`. -/
theorem next_of_steps {s : State} (h : steps s = true) : step s = .next (next s) := by
  unfold steps at h
  unfold next
  split at h
  · rename_i t ht; rw [ht]
  · cases h

/-- The engine that has just accepted a request over some bytes. -/
def serving (op : BitVec 3) (bs : List Byte) (p0 : Nat := 0) (n : Nat := 0) : State :=
  State.reset.accept (Request.ofBytes op bs p0 n)

/-- The response after one step of a request. -/
def respond (op : BitVec 3) (bs : List Byte) (p0 : Nat := 0) : Option Response := (next (serving op bs p0)).response

/-- V-C41. -/
theorem test_nop : respond 1 [0xAA, 0xBB, 0, 0, 0, 0] 2 = some (.ok (.command .nop) 6) := by decide
/-- V-C4. -/
theorem test_stcycl : respond 1 [0x04, 0x01, 0xFF, 0x01] = some (.ok (.command (.stcycl 4 1)) 4) := by decide
/-- V-C8. -/
theorem test_stmod : respond 1 [0x04, 0, 0, 0x05] = some (.ok (.command (.stmod 0)) 4) := by decide
/-- V-C9. -/
theorem test_flush : respond 1 [0, 0, 0, 0x11] = some (.ok (.command .flush) 4) := by decide
/-- V-C10. -/
theorem test_mscnt : respond 1 [0, 0, 0, 0x17] = some (.ok (.command .mscnt) 4) := by decide
/-- V-C12. -/
theorem test_strow : respond 1 [0xFF, 0xFF, 5, 0x30, 0xFF, 0xFF, 0xFF, 0xFF, 0, 0, 0, 0, 0, 0, 0, 0x80, 0x78, 0x56, 0x34, 0x12]
    = some (.ok (.command (.strow 0xFFFFFFFF 0 0x80000000 0x12345678)) 20) := by decide
/-- V-C13. -/
theorem test_strow_short : respond 1 [0, 0, 0, 0x30, 0, 0, 0, 0, 0, 0, 0, 0, 0, 0, 0, 0, 0, 0, 0]
    = some (.err (.unexpectedEnd 4 .command)) := by decide
/-- V-C15. -/
theorem test_mpg : respond 1 [0x10, 0, 1, 0x4A, 0x11, 0x22, 0x33, 0x44, 0x55, 0x66, 0x77, 0x88]
    = some (.ok (.command (.mpg 0x80 8 [0x11, 0x22, 0x33, 0x44, 0x55, 0x66, 0x77, 0x88])) 12) := by decide
/-- V-C18. -/
theorem test_mpg_short : respond 1 [0, 0, 1, 0x4A, 0, 0, 0, 0, 0, 0, 0] = some (.err (.unexpectedEnd 4 .command)) := by decide
/-- V-C20. -/
theorem test_unpack_s_32 : respond 1 [0, 0, 2, 0x60, 1, 0, 0, 0, 0xFF, 0xFF, 0xFF, 0xFF]
    = some (.ok (.command (.unpackS32 0 false false [1, 0xFFFFFFFF])) 12) := by decide
/-- V-C24. -/
theorem test_unpack_v2_16 : respond 1 [5, 0x40, 1, 0x65, 0x34, 0x12, 0x78, 0x56]
    = some (.ok (.command (.unpackV2x16 5 true false [0x1234, 0x5678])) 8) := by decide
/-- V-C26. -/
theorem test_unpack_v4_32 : respond 1 [0, 0x80, 1, 0x6C, 1, 0, 0, 0, 2, 0, 0, 0, 3, 0, 0, 0, 4, 0, 0, 0]
    = some (.ok (.command (.unpackV4x32 0 false true [1, 2, 3, 4])) 20) := by decide
/-- V-C29. -/
theorem test_unpack_v4_16 : respond 1 [0, 0, 1, 0x6D, 1, 0, 2, 0, 3, 0, 4, 0]
    = some (.ok (.command (.unpackV4x16 0 false false [1, 2, 3, 4])) 12) := by decide
/-- V-C31. -/
theorem test_unpack_v4_8 : respond 1 [0, 0, 1, 0x6E, 0x0A, 0x0B, 0x0C, 0x0D]
    = some (.ok (.command (.unpackV4x8 0 false false [0x0A, 0x0B, 0x0C, 0x0D])) 8) := by decide
/-- V-C33. -/
theorem test_unpack_v4_8_short : respond 1 [0, 0, 2, 0x6E, 0, 0, 0, 0, 0, 0, 0] = some (.err (.unexpectedEnd 4 .command)) := by
  decide
/-- V-C38. -/
theorem test_unknown_opcode : respond 1 [0, 0, 4, 0x61] = some (.err (.unknownOpcode 0x61 0 .command)) := by decide
/-- V-C39. -/
theorem test_short_header : respond 1 [0, 0, 0] = some (.err (.unexpectedEnd 0 .command)) := by decide
/-- V-D16. -/
theorem test_refe : respond 0 [0, 0, 0xFF, 3, 0, 0, 0, 0] = some (.ok (.descriptor ⟨0, 0x3FF, .noEffect, .refe, false, 0⟩) 8) := by
  decide
/-- V-D19. -/
theorem test_cnt : respond 0 [0xAA, 0xBB, 2, 0, 0, 0x10, 0, 0, 0, 0] 2
    = some (.ok (.descriptor ⟨2, 0, .noEffect, .cnt, false, 0⟩) 10) := by decide
/-- V-D6. -/
theorem test_next : respond 0 [1, 0, 0, 0x20, 0, 0, 0, 0] = some (.ok (.descriptor ⟨1, 0, .noEffect, .next, false, 0⟩) 8) := by
  decide
/-- V-D7. -/
theorem test_ref : respond 0 [1, 0, 0, 0x30, 0, 0, 0, 0] = some (.ok (.descriptor ⟨1, 0, .noEffect, .ref, false, 0⟩) 8) := by
  decide
/-- V-D8. -/
theorem test_refs : respond 0 [1, 0, 0, 0x40, 0, 0, 0, 0] = some (.ok (.descriptor ⟨1, 0, .noEffect, .refs, false, 0⟩) 8) := by
  decide
/-- V-D9. -/
theorem test_call : respond 0 [1, 0, 0, 0x50, 0, 0, 0, 0] = some (.ok (.descriptor ⟨1, 0, .noEffect, .call, false, 0⟩) 8) := by
  decide
/-- V-D10. -/
theorem test_ret : respond 0 [1, 0, 0, 0x60, 0, 0, 0, 0] = some (.ok (.descriptor ⟨1, 0, .noEffect, .ret, false, 0⟩) 8) := by
  decide
/-- V-D2. -/
theorem test_end : respond 0 [0xFF, 0xFF, 0xFF, 0xFF, 0xFF, 0xFF, 0xFF, 0xFF]
    = some (.ok (.descriptor ⟨0xFFFF, 0x3FF, .enabled, .end_, true, 0xFFFFFFFF⟩) 8) := by decide
/-- V-D20. -/
theorem test_descriptor_short : respond 0 [0xAA, 0xBB, 0xCC, 0, 0, 0, 0, 0, 0, 0] 3
    = some (.err (.unexpectedEnd 3 .descriptor)) := by decide

/-! ## The words of the opcode table, run from reset -/

/-- Whether the step that fetches a table word answers a next state that is not an error. -/
def runs (nbits w : Nat) : Bool :=
  match step (State.reset.withFetchWord nbits w) with
  | .next t => t.phase != .error
  | _ => false

/-- Every row of spec/opcode_table.json at its `match` value. -/
theorem test_table_words_run :
    ([0x00000000, 0x01000000, 0x05000000, 0x11000000, 0x17000000, 0x30000000, 0x4A000000, 0x60000000, 0x65000000,
      0x6C000000, 0x6D000000, 0x6E000000].all (runs 32)) = true ∧
    ([0x00000000, 0x10000000, 0x20000000, 0x30000000, 0x40000000, 0x50000000, 0x60000000, 0x70000000].all (runs 64))
      = true := by decide

/-! ## Hypotheses met -/

/-- The engine with one request waiting. -/
def waiting (s : State) (op : BitVec 3) (bs : List Byte) (p0 : Nat := 0) (n : Nat := 0) : State :=
  { s with requests := [Request.ofBytes op bs p0 n] }

/-- A held `Ok` response, of V-C1. -/
def held : State := next (serving 1 [0, 0, 0, 0])

/-- A held `Err` response, of V-C40. -/
def failed : State := next (serving 1 [])

/-- A command request over `bs` with `l` bytes in all, zeros after those given. -/
def command (bs : List Byte) (l : Nat) : State := State.reset.accept { op := 1, src := Memory.ofBytes bs, len := l, p0 := 0, n := 0 }

/-- A tag with one quadword of NOPs, its region open (V-T2). -/
def region : State := next (serving 2 ([1, 0, 0, 0x10, 0, 0, 0, 0] ++ List.replicate 16 0))

/-- An empty tag of a packet, its region at its end. -/
def closing (id : Byte) : State := next (next (next (serving 3 [0, 0, 0, id, 0, 0, 0, 0] 0 8)))

/-- A packet in its window, before its first tag. -/
def window (l n : Nat) : State := next (serving 3 (List.replicate l 0) 0 n)

/-- After a terminating tag of a packet of `l` bytes with a window of `n` (V-P8, V-P11). -/
def padding (l n : Nat) : State := next (next (next (next (serving 3 (List.replicate l 0) 0 n))))

theorem held_phase : held.phase = .done ∧ held.result = some (.command .nop, 4) := by decide
theorem failed_phase : failed.phase = .error ∧ failed.err = some (.unexpectedEnd 0 .command) := by decide
theorem region_phase : region.phase = .busy .tloop ∧ region.pos = some 8 ∧ region.tagEnd = some 24 ∧ region.lim = some 24 := by decide
theorem padding_phase : (padding 13 13).phase = .busy .pad ∧ (padding 13 13).pos = some 8 := by decide

theorem noneOf {α : Type} {P : α → Prop} {l : List α} (h : l = []) : ∀ x ∈ l, P x := by simp [h]

theorem command_at (bs : List Byte) (l : Nat) : (command bs l).AtCommand 0 l := ⟨rfl, rfl, rfl, .inl rfl⟩
theorem region_at : region.AtCommand 8 24 := ⟨by decide, by decide, by decide, .inr ⟨by decide, 24, by decide, by decide⟩⟩
theorem descriptor_at (bs : List Byte) : (serving 0 bs).AtDescriptor 0 bs.length ∧ (serving 2 bs).AtDescriptor 0 bs.length :=
  ⟨⟨rfl, rfl, rfl, .inl rfl⟩, ⟨rfl, rfl, rfl, .inr rfl⟩⟩

theorem witness_ResetClearsTheEngineAtAnyTime :
    ({ State.reset with resetLine := true } : State).resetLine = true ∧ ({ region with resetLine := true } : State).resetLine = true :=
  ⟨rfl, rfl⟩

/-- Every request code, the start at the end of the source. -/
theorem witness_AcceptanceWritesEveryRegister : ∀ op ∈ [0, 1, 2, 3, (4 : BitVec 3)],
    let s := waiting failed op [7] 1
    s.resetLine = false ∧ s.Resting ∧ s.requests = [Request.ofBytes op [7] 1 0] ∧ op.toNat ≤ 4 ∧
      (Request.ofBytes op [7] 1 0).p0 ≤ (Request.ofBytes op [7] 1 0).len := by
  unfold State.Resting; decide

/-- A reserved code, and a start one past the source. -/
theorem witness_AcceptanceTurnsAway :
    (waiting held 5 [7] 1).resetLine = false ∧ (waiting held 5 [7] 1).Resting ∧
      (4 < (Request.ofBytes 5 [7] 1 0).op.toNat ∧ ¬ (Request.ofBytes 5 [7] 1 0).len < (Request.ofBytes 5 [7] 1 0).p0) ∧
      (¬ 4 < (Request.ofBytes 4 [7] 2 0).op.toNat ∧ (Request.ofBytes 4 [7] 2 0).len < (Request.ofBytes 4 [7] 2 0).p0) := by
  unfold State.Resting; decide

theorem witness_RequestsWaitWhileBusy :
    ((waiting region 0 []).resetLine = false ∧ (waiting region 0 []).Running ∧
      steps (waiting region 0 []) = true) ∧
      (waiting held 4 []).phase = .done ∧ (waiting failed 4 []).phase = .error ∧
      (Request.ofBytes 4 [] 0 0).p0 ≤ (Request.ofBytes 4 [] 0 0).len :=
  ⟨⟨by decide, ⟨_, region_phase.1⟩, by decide⟩, by decide, by decide, by decide⟩

theorem witness_ResponseByPhase :
    (held.phase = .done ∧ held.result = some (.command .nop, 4)) ∧
      (failed.phase = .error ∧ failed.err = some (.unexpectedEnd 0 .command)) ∧ State.reset.phase = .idle ∧ region.Running ∧
      (State.reset.resetLine = false ∧ State.reset.Resting ∧ State.reset.requests = []) :=
  ⟨held_phase, failed_phase, rfl, ⟨_, region_phase.1⟩, rfl, .inl rfl, rfl⟩

theorem witness_ResponseReadableUntilAcceptOrReset :
    region.Running ∧ ((serving 1 [0, 0, 0, 0]).Running ∧ steps (serving 1 [0, 0, 0, 0]) = true ∧ held.phase = .done) ∧
      (held.phase = .done ∧ steps held = true) ∧ (failed.phase = .error ∧ steps failed = true) ∧
      (waiting held 0 []).phase = .done ∧ steps (waiting held 0 []) = true :=
  ⟨⟨_, region_phase.1⟩, ⟨⟨_, rfl⟩, by decide⟩, by decide⟩

theorem witness_NothingCarriesBetweenRequests :
    (waiting State.reset 3 [1] 1).Resting ∧ (waiting failed 3 [1] 1).Resting ∧ (waiting State.reset 3 [1] 1).resetLine = false ∧
      (waiting failed 3 [1] 1).resetLine = false ∧ (waiting State.reset 3 [1] 1).requests = (waiting failed 3 [1] 1).requests ∧
      steps (waiting State.reset 3 [1] 1) = true ∧
      steps (waiting failed 3 [1] 1) = true := by
  unfold State.Resting; decide

theorem witness_RunningIgnoresWaitingRequests : region.resetLine = false ∧ region.Running ∧ steps region = true :=
  ⟨by decide, ⟨_, region_phase.1⟩, by decide⟩

theorem witness_WorkingRegistersAreNotObservable :
    let t : State := { held with pos := some 99, cmds := [.flush], desc := none, limSave := [1] }
    t ≠ held ∧ t.phase = held.phase ∧ t.result = held.result ∧ t.err = held.err := by decide

theorem witness_DecodeOfEncodeIsTheInstruction :
    [Instr.stcycl 255 1, .mpg 0 8, .mpg 0x7FFF8 2048, .unpackS32 0x3FF true false 1, .unpackV4x32 0 false true 256,
      .tagEnd 0xFFFF 0x3FF .enabled true 0xFFFFFFFF].all Instr.wf = true := by decide

theorem witness_DescriptorReencodesToItsBytes : ([0x34, 0x12, 0xFF, 0xFF, 0x78, 0x56, 0x34, 0x12] : List Byte).length = 8 := rfl

theorem witness_ExactlyTwelveOpcodesAreKnown :
    (BitVec.ofNat 8 ((0x6EFFFFFF : Word).toNat / 2 ^ 24) : Byte) ∈ [0x00, 0x01, 0x05, 0x11, 0x17, 0x30, 0x4A, 0x60, 0x65, 0x6C, 0x6D, 0x6E] ∧
    (BitVec.ofNat 8 ((0x6FFFFFFF : Word).toNat / 2 ^ 24) : Byte) ∉ [0x00, 0x01, 0x05, 0x11, 0x17, 0x30, 0x4A, 0x60, 0x65, 0x6C, 0x6D, 0x6E] := by
  decide

theorem witness_IgnoredHeaderBitsDoNotMatter :
    ((0x00FFFFFF : Word).toNat / 2 ^ 24 = (0x00000000 : Word).toNat / 2 ^ 24) ∧
      ((0x01FF1234 : Word).toNat % 2 ^ 16 = (0x01001234 : Word).toNat % 2 ^ 16) ∧
      ((0x05FFFFFE : Word).toNat % 4 = (0x05000002 : Word).toNat % 4) ∧
      ((0x60013C01 : Word).toNat % 2 ^ 10 = (0x60010001 : Word).toNat % 2 ^ 10 ∧
        (0x60013C01 : Word).toNat / 2 ^ 14 % 4 = (0x60010001 : Word).toNat / 2 ^ 14 % 4 ∧
        (0x60013C01 : Word).toNat / 2 ^ 16 % 2 ^ 8 = (0x60010001 : Word).toNat / 2 ^ 16 % 2 ^ 8) := by decide

theorem witness_StepRunsTheDecodedInstruction :
    ((command [4, 1, 0, 1] 4).AtCommand 0 4 ∧ decode .vifcode ((command [4, 1, 0, 1] 4).srcBytes 0 4) = .ok (.stcycl 4 1, [])) ∧
      (region.AtCommand 8 24 ∧ decode .vifcode (region.srcBytes 8 4) = .ok (.nop, [])) ∧
      (serving 0 (List.replicate 8 0)).AtDescriptor 0 8 ∧
      decode .dmatag ((serving 0 (List.replicate 8 0)).srcBytes 0 8) = .ok (.tagRefe 0 0 .noEffect false 0, []) :=
  ⟨⟨command_at _ _, by decide⟩, ⟨region_at, by decide⟩, (descriptor_at _).1, by decide⟩

theorem witness_HeaderOnlyCommandsComplete :
    ((command [] 4).pos = some 0 ∧ (command [] 4).phase = .busy .cmd1) ∧ region.pos = some 8 ∧ region.phase = .busy .tloop := by decide

/-- The payload ends exactly at `LIM`, for the shortest and the longest payload. -/
theorem witness_StrowAndMpgComplete :
    (command [] 20).pos = some 0 ∧ (command [] 20).lim = some 20 ∧ (command [] 20).phase = .busy .cmd1 ∧
      (command [] 2052).lim = some (0 + 4 + (2048 : BitVec 12).toNat) ∧ region.lim = some (8 + 4 + (12 : BitVec 12).toNat) := by decide

theorem witness_UnpackCommandsComplete :
    (command [] 1028).pos = some 0 ∧ (command [] 1028).phase = .busy .cmd1 ∧ (command [] 1028).lim = some (0 + 4 + 4 * 256) ∧
      (command [] 4100).lim = some (0 + 4 + 16 * 256) ∧ (command [] 2052).lim = some (0 + 4 + 8 * 256) := by decide

theorem witness_TagDescriptorsComplete :
    ((serving 0 (List.replicate 8 0)).pos = some 0 ∧ (serving 0 (List.replicate 8 0)).lim = some 8 ∧
      (serving 0 (List.replicate 8 0)).phase = .busy .desc1) ∧ (serving 2 (List.replicate 8 0)).phase = .busy .tdesc := by decide

/-- One byte short, in each clause. -/
theorem witness_ShortPayloadTraps :
    ((command [] 19).pos = some 0 ∧ (command [] 19).lim = some 19 ∧ 19 < 0 + 20) ∧ 2051 < 0 + 4 + (2048 : BitVec 12).toNat ∧
      1027 < 0 + 4 + 4 * 256 ∧ 4099 < 0 + 4 + 16 * 256 ∧ 2051 < 0 + 4 + 8 * 256 := by decide

/-- A command that ends, one whose payload does not fit, a descriptor. -/
theorem witness_InstructionsLeaveSourceAndWindow :
    (∃ t, exec .strow (command [] 20) = .next t) ∧ (∃ t, exec (.mpg 0 8) (command [] 11) = .next t) ∧
      ∃ t, exec (.tagCnt 1 0 .noEffect false 0) (serving 2 (List.replicate 8 0)) = .next t :=
  ⟨⟨_, rfl⟩, ⟨_, rfl⟩, ⟨_, rfl⟩⟩

theorem witness_CommandsChangeOnlyCursorAndRecord :
    Instr.format .strow = .vifcode ∧ (∃ t, exec .strow (command [] 20) = .next t) ∧ ∃ t, exec .strow (command [] 19) = .next t :=
  ⟨rfl, ⟨_, rfl⟩, ⟨_, rfl⟩⟩

theorem witness_DescriptorFieldsAreThoseOfItsBytes :
    ((serving 0 (List.replicate 7 0)).AtDescriptor 0 7 ∧ 7 < 0 + 8) ∧ (serving 2 (List.replicate 8 0)).AtDescriptor 0 8 :=
  ⟨⟨(descriptor_at (List.replicate 7 0)).1, by decide⟩, (descriptor_at (List.replicate 8 0)).2⟩

theorem witness_DescriptorPhasesRunDecodeDescriptor :
    (∀ op ∈ [0, (2 : BitVec 3)], (serving op (List.replicate 8 0)).resetLine = false ∧
        (serving op (List.replicate 8 0)).sourceChanged = false ∧ (serving op (List.replicate 8 0)).pos = some 0 ∧
        (serving op (List.replicate 8 0)).lim = some 8 ∧
        descriptorFn (serving op (List.replicate 8 0)).source 8 0 = .ok (⟨0, 0, .noEffect, .refe, false, 0⟩, 8) ∧
        descriptorFn (serving op (List.replicate 7 0)).source 7 0 = .error (.unexpectedEnd 0 .descriptor)) ∧
      (serving 0 (List.replicate 8 0)).phase = .busy .desc1 ∧ (serving 2 (List.replicate 8 0)).phase = .busy .tdesc := by decide

/-- Two descriptors of one `qword_count` in each phase that decodes one; a command before the region's
end; the end of the region of a `TAG` request. -/
theorem witness_TagDecodeDependsOnQwordCountOnly :
    ((0x00000000_90000001 : Dword).toNat % 2 ^ 16 = (0xFFFFFFFF_7FFF0001 : Dword).toNat % 2 ^ 16 ∧
      (∀ w ∈ [0x00000000_90000001, (0xFFFFFFFF_7FFF0001 : Dword)], ∀ op ∈ [0, (2 : BitVec 3)],
        ∃ t, exec (decodeDescriptor w) (serving op (List.replicate 8 0)) = .next t)) ∧
      (region.resetLine = false ∧ region.phase = .busy .tloop ∧ region.pos = some 8 ∧ region.tagEnd = some 24 ∧
        steps region = true) ∧
      (let s := next (serving 2 (List.replicate 8 0))
       s.resetLine = false ∧ s.phase = .busy .tloop ∧ s.pos = some 8 ∧ s.tagEnd = some 8 ∧ s.op = some 2 ∧
         steps s = true) := by
  refine ⟨⟨by decide, ?_⟩, by decide⟩
  simp only [List.forall_mem_cons, List.not_mem_nil, false_implies, implies_true, and_true]
  exact ⟨⟨⟨_, rfl⟩, ⟨_, rfl⟩⟩, ⟨_, rfl⟩, ⟨_, rfl⟩⟩

theorem witness_NopFlushMscntRules :
    ((command [] 3).AtCommand 0 3 ∧ 3 < 0 + 4) ∧
      ((command [] 4).AtCommand 0 4 ∧ (command [] 4).srcByte (0 + 3) = 0x00) ∧
      (command [0, 0, 0, 0x11] 4).srcByte (0 + 3) = 0x11 ∧ (command [0, 0, 0, 0x17] 4).srcByte (0 + 3) = 0x17 :=
  ⟨⟨command_at _ _, by decide⟩, ⟨command_at _ _, by decide⟩, by decide⟩

theorem witness_StcyclRule : (command [4, 1, 0, 1] 4).AtCommand 0 4 ∧ (command [4, 1, 0, 1] 4).srcByte (0 + 3) = 0x01 :=
  ⟨command_at _ _, by decide⟩

theorem witness_StmodRule : (command [7, 0, 0, 5] 4).AtCommand 0 4 ∧ (command [7, 0, 0, 5] 4).srcByte (0 + 3) = 0x05 :=
  ⟨command_at _ _, by decide⟩

theorem witness_StrowRule :
    (command [0, 0, 0, 0x30] 19).AtCommand 0 19 ∧ (command [0, 0, 0, 0x30] 20).AtCommand 0 20 ∧
      (command [0, 0, 0, 0x30] 20).srcByte (0 + 3) = 0x30 := ⟨command_at _ _, command_at _ _, by decide⟩

/-- `num = 0` and `num = 255`, the payload one byte short and exact. -/
theorem witness_MpgRule :
    ((command [0, 0, 0, 0x4A] 2051).AtCommand 0 2051 ∧ (command [0, 0, 0, 0x4A] 2052).AtCommand 0 2052 ∧
      2048 = (if (command [0, 0, 0, 0x4A] 2052).srcByte (0 + 2) ≠ 0
        then ((command [0, 0, 0, 0x4A] 2052).srcByte (0 + 2)).toNat * 8 else 2048)) ∧
      (command [0, 0, 255, 0x4A] 2044).AtCommand 0 2044 ∧ (command [0, 0, 255, 0x4A] 2044).srcByte (0 + 3) = 0x4A ∧
      2040 = (if (command [0, 0, 255, 0x4A] 2044).srcByte (0 + 2) ≠ 0
        then ((command [0, 0, 255, 0x4A] 2044).srcByte (0 + 2)).toNat * 8 else 2048) :=
  ⟨⟨command_at _ _, command_at _ _, by decide⟩, command_at _ _, by decide⟩

/-- Each opcode with its payload exact and one byte short, for `num = 1`; `num = 0` is 256 units. -/
theorem witness_UnpackRules :
    (∀ c ∈ [(0x60, 8), (0x65, 8), (0x6E, 8), (0x6C, 20), ((0x6D : Byte), 12)],
      let s := command [0xFF, 0x7F, 1, c.1] c.2
      s.AtCommand 0 c.2 ∧ (command [0xFF, 0x7F, 1, c.1] (c.2 - 1)).AtCommand 0 (c.2 - 1) ∧ s.srcByte (0 + 3) = c.1 ∧
        1 = (if s.srcByte (0 + 2) ≠ 0 then (s.srcByte (0 + 2)).toNat else 256) ∧
        (0x3FF : BitVec 10).toNat = (s.srcByte 0).toNat + 256 * ((s.srcByte (0 + 1)).toNat % 4) ∧
        true.toNat = (s.srcByte (0 + 1)).toNat / 64 % 2 ∧ false.toNat = (s.srcByte (0 + 1)).toNat / 128) ∧
      256 = (if (command [0, 0, 0, 0x60] 1028).srcByte (0 + 2) ≠ 0
        then ((command [0, 0, 0, 0x60] 1028).srcByte (0 + 2)).toNat else 256) :=
  ⟨fun _ _ => ⟨command_at _ _, command_at _ _, by revert ‹_ ∈ _›; revert ‹Byte × Nat›; decide⟩, by decide⟩

theorem witness_CommandChecksInOrder :
    (command [] 3).AtCommand 0 3 ∧ (command [0, 0, 0, 0xFF] 4).AtCommand 0 4 ∧
      payloadLength ((command [0, 0, 0, 0xFF] 4).srcByte (0 + 3)).toNat ((command [0, 0, 0, 0xFF] 4).srcByte (0 + 2)).toNat = none ∧
      (command [0, 0, 1, 0x6D] 11).AtCommand 0 11 ∧ (command [0, 0, 1, 0x6D] 12).AtCommand 0 12 ∧
      payloadLength ((command [0, 0, 1, 0x6D] 12).srcByte (0 + 3)).toNat ((command [0, 0, 1, 0x6D] 12).srcByte (0 + 2)).toNat = some 8 :=
  ⟨command_at _ _, command_at _ _, by decide, command_at _ _, command_at _ _, by decide⟩

theorem witness_CommandPhaseRunsDecodeCommand :
    (command [] 4).resetLine = false ∧ (command [] 4).sourceChanged = false ∧ (command [] 4).pos = some 0 ∧
      (command [] 4).lim = some 4 ∧ (command [] 4).phase = .busy .cmd1 ∧ commandFn (command [] 4).source 4 0 = .ok (.nop, 4) ∧
      commandFn (command [] 3).source 3 0 = .error (.unexpectedEnd 0 .command) := by decide

/-- In the region; at its end in a `TAG` request; at its end in a packet. -/
theorem witness_RegionPhaseDecodesThenCloses :
    (region.resetLine = false ∧ region.sourceChanged = false ∧ region.pos = some 8 ∧ region.lim = some 24 ∧
      region.phase = .busy .tloop ∧ region.tagEnd = some 24 ∧ commandFn region.source 24 8 = .ok (.nop, 12)) ∧
      (let s := next (serving 2 ([1, 0, 0, 0x10, 0, 0, 0, 0, 0, 0, 0, 0xFF] ++ List.replicate 12 0))
       s.phase = .busy .tloop ∧ s.pos = some 8 ∧ s.tagEnd = some 24 ∧ s.lim = some 24 ∧
         commandFn s.source 24 8 = .error (.unknownOpcode 0xFF 8 .command)) ∧
      (let s := next (serving 2 (List.replicate 8 0))
       s.phase = .busy .tloop ∧ s.pos = some 8 ∧ s.tagEnd = some 8 ∧ s.op = some 2 ∧ s.limSave = [8] ∧ s.desc.isSome) ∧
      (closing 0x10).phase = .busy .tloop ∧ (closing 0x10).pos = some 8 ∧ (closing 0x10).tagEnd = some 8 ∧
        (closing 0x10).op = some 3 ∧ (closing 0x10).limSave = [8, 8] := by decide

theorem witness_TagKindDecidesWhatFollows : ∀ c ∈ [(0x00, TagId.refe), (0x10, .cnt), (0x20, .next), (0x30, .ref), (0x40, .refs),
      (0x50, .call), (0x60, .ret), ((0x70 : Byte), .end_)],
    let s := closing c.1
    s.resetLine = false ∧ s.phase = .busy .tloop ∧ s.pos = some 8 ∧ s.tagEnd = some 8 ∧ s.op = some 3 ∧
      s.desc = some ⟨0, 0, .noEffect, c.2, false, 0⟩ ∧ steps s = true := by decide

theorem witness_FramingOpensTheWindow :
    (∀ op ∈ [3, (4 : BitVec 3)], (serving op [1, 0, 0, 0]).phase = .busy .frame ∧ (serving op [1, 0, 0, 0]).pos = some 0 ∧
      (serving op [1, 0, 0, 0]).lim = some 4 ∧ (serving op [1, 0, 0, 0]).op = some op ∧ (serving op [1, 0, 0, 0]).req.isSome) ∧
      (serving 4 [0, 0, 0]).lim = some 3 := by decide

theorem witness_WindowCheckEndsThePacket :
    ((window 1 1).phase = .busy .ploop ∧ (window 1 1).pos = some 0 ∧ (window 1 1).winEnd = some 1) ∧
      (window 8 0).phase = .busy .ploop ∧ (window 8 0).pos = some 0 ∧ (window 8 0).winEnd = some 0 ∧ (window 8 0).limSave = [8] := by
  decide

theorem witness_PaddingSkipsToTheWindowEnd :
    ((padding 13 13).resetLine = false ∧ (padding 13 13).phase = .busy .pad ∧ (padding 13 13).pos = some 8 ∧
      (padding 13 13).lim = some 13 ∧ (padding 13 13).winEnd = some 13) ∧
      (padding 8 8).pos = some 8 ∧ (padding 8 8).winEnd = some 8 ∧
      (padding 10 11).phase = .busy .pad ∧ (padding 10 11).lim = some 10 ∧ (padding 10 11).winEnd = some 11 := by decide

theorem witness_EveryErrorIsTakenAlike :
    (serving 0 []).resetLine = false ∧ (serving 0 []).Running ∧ steps (serving 0 []) = true ∧
      (next (serving 0 [])).phase = .error := ⟨rfl, ⟨_, rfl⟩, by decide⟩

/-- An error raised in each phase that reads. -/
theorem witness_ErrorLayerIsTheReadersLayer : ∀ s ∈ [serving 0 [], serving 1 [], serving 1 [0, 0, 0, 0xFF], serving 2 [],
      next (serving 2 [1, 0, 0, 0x10, 0, 0, 0, 0]), serving 4 [], padding 10 11],
    s.resetLine = false ∧ steps s = true ∧ (next s).phase = .error ∧ (next s).err.isSome := by decide

theorem witness_InvariantStatesAlwaysStep : State.reset.Inv := by
  refine ⟨by simp [State.reset], ?_⟩
  constructor <;> rfl

theorem witness_EveryStepKeepsTheInvariant : State.reset.Inv ∧ step State.reset = .next (next State.reset) :=
  ⟨witness_InvariantStatesAlwaysStep, next_of_steps (by decide)⟩

/-- The empty tag of V-T12, its region at its end. -/
theorem witness_TagResponseFillsItsRegion :
    let s := next (serving 2 [0, 0, 0, 0x10, 0, 0, 0, 0])
    s.Inv ∧ s.resetLine = false ∧ s.phase = .busy .tloop ∧ steps s = true ∧ (next s).phase = .done := by
  refine ⟨⟨by decide, Request.ofBytes 2 [0, 0, 0, 0x10, 0, 0, 0, 0] 0 0, 8, 8, ?_⟩, by decide⟩
  refine ⟨by decide, Request.ofBytes_wf _ _ _ _, by decide, by decide, by decide, by decide, by decide, by decide, by decide,
    by decide, by decide, 0, 8, ⟨0, 0, .noEffect, .cnt, false, 0⟩, ?_⟩
  exact ⟨by decide, by decide, by decide, by decide, by decide, noneOf (by decide), by decide, .inl (by decide)⟩

/-- The empty packet of V-P4. -/
theorem witness_PacketResponseEndsAtTheWindowEnd :
    let s := next (serving 3 [0, 0, 0, 0x70, 0, 0, 0, 0])
    s.Inv ∧ s.resetLine = false ∧ s.phase = .busy .ploop ∧ steps s = true ∧ (next s).phase = .done := by
  refine ⟨⟨by decide, Request.ofBytes 3 [0, 0, 0, 0x70, 0, 0, 0, 0] 0 0, 0, 0, ?_⟩, by decide⟩
  refine ⟨by decide, Request.ofBytes_wf _ _ _ _, by decide, by decide, by decide, by decide, by decide, by decide, by decide,
    by decide, by decide, 0, ⟨by decide, .inl (by decide), by decide, by decide, noneOf (by decide)⟩,
    noneOf (by decide), .inl (noneOf (by decide)), by decide⟩

/-- A command inside a packet's tag: window 40 of a source of 32 bytes, region to 24. -/
def inPacket : State := next (next (next (serving 3 ([1, 0, 0, 0x10] ++ List.replicate 28 0) 0 40)))

theorem witness_LimitsAreTheLeastInForce :
    inPacket.Inv ∧ inPacket.phase = .busy .tloop ∧ inPacket.op = some 3 := by
  refine ⟨⟨by decide, Request.ofBytes 3 ([1, 0, 0, 0x10] ++ List.replicate 28 0) 0 40, 8, 24, ?_⟩, by decide⟩
  refine ⟨by decide, Request.ofBytes_wf _ _ _ _, by decide, by decide, by decide, by decide, by decide, by decide, by decide,
    by decide, by decide, 0, 24, ⟨1, 0, .noEffect, .cnt, false, 0⟩, ?_⟩
  exact ⟨by decide, by decide, by decide, by decide, by decide, noneOf (by decide), by decide,
    .inr ⟨.inl (by decide), 40, by decide, by decide, by decide, noneOf (by decide),
      noneOf (by decide)⟩⟩

theorem witness_CursorNeverMovesBack : region.resetLine = false ∧ region.Running ∧ steps region = true :=
  witness_RunningIgnoresWaitingRequests

theorem witness_NoStepWritesTheSource : region.resetLine = false ∧ region.Running ∧ steps region = true :=
  witness_RunningIgnoresWaitingRequests

theorem witness_EveryItemAdvancesTheCursor :
    (steps region = true ∧ region.phase = .busy .tloop ∧ (next region).phase = .busy .tloop) ∧
      (let s := serving 1 [0, 0, 0, 0]
       steps s = true ∧ s.phase = .busy .cmd1 ∧ (next s).phase = .done) ∧
      (let s := serving 2 (List.replicate 8 0)
       steps s = true ∧ s.phase = .busy .tdesc ∧ (next s).phase = .busy .tloop ∧ (next (next s)).phase = .done) ∧
      (let s := serving 0 (List.replicate 8 0)
       steps s = true ∧ s.phase = .busy .desc1 ∧ (next s).phase = .done) ∧
      (next (closing 0x10)).phase = .busy .ploop ∧ (next (closing 0x70)).phase = .busy .pad := by decide

theorem witness_MachineAgreesWithTheFunctions :
    State.reset.resetLine = false ∧ (Request.ofBytes 3 [] 0 5).op.toNat ≤ 4 ∧
      (Request.ofBytes 3 [] 0 5).p0 ≤ (Request.ofBytes 3 [] 0 5).len := by decide

end Sys2Proof.Tests
end

/-! # Proofs of the family spec/00_scope.md

Little-endian reads (R10), and the noninterference of the waiting requests with a running one (R5). -/

namespace Sys2Proof.Machine

/-! ## Reads byte by byte -/

theorem State.srcBytes_succ (s : State) (a k : Nat) :
    s.srcBytes a (k + 1) = s.srcByte a :: s.srcBytes (a + 1) k := by
  simp [State.srcBytes, List.range_succ_eq_map, Function.comp_def, Nat.add_right_comm, Nat.add_assoc]

@[simp] theorem State.memRead_zero (s : State) (a : Nat) : s.memRead a 0 = 0 := rfl

theorem State.memRead_succ (s : State) (a k : Nat) :
    s.memRead a (k + 1) = (s.srcByte a).toNat + 256 * s.memRead (a + 1) k := by
  rw [State.memRead, State.srcBytes_succ, leNat_cons, State.memRead]

/-- The closed form of the recursion `memRead_succ`: each byte weighs 256 times the one before it. -/
theorem State.memRead_eq_sum (s : State) (a k : Nat) :
    s.memRead a k = ((List.range k).map fun i => 256 ^ i * (s.srcByte (a + i)).toNat).sum := by
  induction k generalizing a with
  | zero => rfl
  | succ k ih =>
    have weigh (i : Nat) : 256 ^ (i + 1) * (s.srcByte (a + (i + 1))).toNat
        = 256 * (256 ^ i * (s.srcByte (a + 1 + i)).toNat) := by
      rw [Nat.pow_succ', Nat.mul_assoc, Nat.add_assoc, Nat.add_comm 1 i]
    rw [State.memRead_succ, ih, List.range_succ_eq_map, List.map_cons, List.map_map, List.sum_cons]
    simp [Function.comp_def, weigh, List.sum_map_mul_left]

/-- Settles O14: the value of a read, byte by byte and as a weighted sum. -/
theorem readsAreLittleEndian : Obligations.ReadsAreLittleEndian := fun s a k =>
  ⟨s.memRead_zero a, s.memRead_succ a k, s.memRead_eq_sum a k⟩

/-! ## The operand form of a command -/

/-- `exec_form` with the form, and the record of a command without payload, chosen once for all states. -/
theorem exec_form_every_state {i : Instr} (hf : i.format = .vifcode) :
    (∃ c, ∀ s, exec i s = headerOnly c s) ∨
      ∀ s, exec i s = withPayload (payloadBytes i) (fun q => commandRecord s q i) s := by
  cases i with
  | nop | stcycl | stmod | flush | mscnt => exact .inl ⟨_, fun _ => rfl⟩
  | strow | mpg | unpackS32 | unpackV2x16 | unpackV4x32 | unpackV4x16 | unpackV4x8 => exact .inr fun _ => rfl
  | tagRefe | tagCnt | tagNext | tagRef | tagRefs | tagCall | tagRet | tagEnd => cases hf

/-! ## The waiting requests replaced

An operation that never looks at the waiting list commutes with replacing it: run on the state with
another list, it gives the answer it gave, with that list. One such equation per operation, up to the
step of a running request. -/

/-- The state with another list of waiting requests. -/
def State.withWaiting (s : State) (ws : List Request) : State := { s with requests := ws }

/-- A step's answer with another list of waiting requests in its next state. -/
def answerWithWaiting (ws : List Request) : Result → Result
  | .next t => .next (t.withWaiting ws)
  | .fault r => .fault r
  | .refused r => .refused r

@[simp] theorem answerWithWaiting_next (ws : List Request) (t : State) :
    answerWithWaiting ws (.next t) = .next (t.withWaiting ws) := rfl

theorem answerWithWaiting_ite (ws : List Request) (c : Prop) [Decidable c] (x y : Result) :
    answerWithWaiting ws (if c then x else y) = if c then answerWithWaiting ws x else answerWithWaiting ws y :=
  apply_ite _ _ _ _

/-! ### Registers and reads of the source -/

section
variable (s : State) (ws : List Request)

@[simp] theorem State.withWaiting_phase : (s.withWaiting ws).phase = s.phase := rfl
@[simp] theorem State.withWaiting_limSave : (s.withWaiting ws).limSave = s.limSave := rfl

@[simp] theorem State.srcByte_withWaiting (a : Nat) : (s.withWaiting ws).srcByte a = s.srcByte a :=
  State.srcByte_congr rfl rfl rfl a

@[simp] theorem State.srcBytes_withWaiting (a k : Nat) : (s.withWaiting ws).srcBytes a k = s.srcBytes a k := by
  simp [State.srcBytes]

@[simp] theorem State.memRead_withWaiting (a k : Nat) : (s.withWaiting ws).memRead a k = s.memRead a k := by
  simp [State.memRead]

@[simp] theorem State.units_withWaiting (w q count u : Nat) :
    (s.withWaiting ws).units w q count u = s.units w q count u := by
  simp [State.units]

@[simp] theorem State.payloadWord_withWaiting (q i : Nat) :
    (s.withWaiting ws).payloadWord q i = s.payloadWord q i := by
  simp [State.payloadWord]

/-- The record of a command is made of the instruction and the source alone. -/
theorem commandRecord_withWaiting (q : Nat) (i : Instr) :
    commandRecord (s.withWaiting ws) q i = commandRecord s q i := by
  cases i <;> simp [commandRecord]

/-! ### Shared operations -/

/-- Reading a register commutes if what follows the read does. -/
theorem need_withWaiting {α : Type} (r : RegName) (v : Option α) {k k' : α → Result}
    (hk : ∀ a, k' a = answerWithWaiting ws (k a)) : need r v k' = answerWithWaiting ws (need r v k) := by
  cases v with
  | none => rfl
  | some a => exact hk a

/-- Popping a limit commutes if what follows the pop does. -/
theorem popLimit_withWaiting {k k' : State → Result}
    (hk : ∀ t : State, k' (t.withWaiting ws) = answerWithWaiting ws (k t)) :
    popLimit (s.withWaiting ws) k' = answerWithWaiting ws (popLimit s k) := by
  simp only [popLimit, State.withWaiting_limSave]
  split
  · rename_i l rest _
    exact hk { s with lim := some l, limSave := rest }
  · rfl

theorem decodedCommand_withWaiting (c : Command) (p : Nat) :
    decodedCommand c p (s.withWaiting ws) = answerWithWaiting ws (decodedCommand c p s) := by
  simp only [decodedCommand, State.withWaiting_phase]
  split <;> rfl

theorem decodedDescriptor_withWaiting (d : Descriptor) :
    decodedDescriptor d (s.withWaiting ws) = answerWithWaiting ws (decodedDescriptor d s) := by
  refine need_withWaiting ws .pos s.pos fun p => ?_
  simp only [State.withWaiting_phase]
  split
  · rfl
  · exact need_withWaiting ws .lim s.lim fun _ => rfl
  · rfl

theorem headerOnly_withWaiting (c : Command) :
    headerOnly c (s.withWaiting ws) = answerWithWaiting ws (headerOnly c s) :=
  need_withWaiting ws .pos s.pos fun _ => decodedCommand_withWaiting s ws c _

theorem withPayload_withWaiting (k : Nat) {c c' : Nat → Command} (hc : ∀ q, c' q = c q) :
    withPayload k c' (s.withWaiting ws) = answerWithWaiting ws (withPayload k c s) := by
  refine need_withWaiting ws .pos s.pos fun p => need_withWaiting ws .lim s.lim fun l => ?_
  rw [answerWithWaiting_ite, decodedCommand_withWaiting, hc]
  rfl

/-! ### The meanings -/

theorem exec_withWaiting (i : Instr) : exec i (s.withWaiting ws) = answerWithWaiting ws (exec i s) := by
  cases hf : i.format with
  | vifcode =>
    obtain ⟨c, he⟩ | he := exec_form_every_state hf
    · rw [he, he, headerOnly_withWaiting]
    · rw [he, he]
      exact withPayload_withWaiting s ws _ fun q => commandRecord_withWaiting s ws q i
  | dmatag =>
    obtain ⟨d, hd⟩ := tagRecord_isSome hf
    rw [exec_of_tagRecord hd, exec_of_tagRecord hd, decodedDescriptor_withWaiting]

/-! ### The phases of a running request -/

theorem fetch_withWaiting (f : Format) :
    fetch f exec (s.withWaiting ws) = answerWithWaiting ws (fetch f exec s) := by
  refine need_withWaiting ws .pos s.pos fun p => need_withWaiting ws .lim s.lim fun l => ?_
  rw [answerWithWaiting_ite, State.srcBytes_withWaiting]
  congr 1
  cases decode f (s.srcBytes p f.size) with
  | ok d => exact exec_withWaiting s ws d.1
  | error e => rfl

theorem stepFrame_withWaiting : stepFrame (s.withWaiting ws) = answerWithWaiting ws (stepFrame s) := by
  refine need_withWaiting ws .op s.op fun op => need_withWaiting ws .pos s.pos fun p =>
    need_withWaiting ws .lim s.lim fun l => ?_
  split
  · exact need_withWaiting ws .request s.req fun _ => rfl
  · rw [answerWithWaiting_ite, State.memRead_withWaiting]; rfl
  · rfl

theorem stepWindow_withWaiting : stepWindow (s.withWaiting ws) = answerWithWaiting ws (stepWindow s) := by
  refine need_withWaiting ws .pos s.pos fun p => need_withWaiting ws .winEnd s.winEnd fun w => ?_
  rw [answerWithWaiting_ite]
  exact congrArg _ (popLimit_withWaiting s ws fun _ => rfl)

theorem stepRegionEnd_withWaiting : stepRegionEnd (s.withWaiting ws) = answerWithWaiting ws (stepRegionEnd s) := by
  refine need_withWaiting ws .pos s.pos fun p => need_withWaiting ws .op s.op fun op =>
    need_withWaiting ws .desc s.desc fun d => popLimit_withWaiting s ws fun t => ?_
  rw [answerWithWaiting_ite]
  rfl

theorem stepRegion_withWaiting :
    stepRegion exec (s.withWaiting ws) = answerWithWaiting ws (stepRegion exec s) := by
  refine need_withWaiting ws .pos s.pos fun p => need_withWaiting ws .tagEnd s.tagEnd fun e => ?_
  rw [answerWithWaiting_ite, fetch_withWaiting, stepRegionEnd_withWaiting]

theorem stepPadding_withWaiting : stepPadding (s.withWaiting ws) = answerWithWaiting ws (stepPadding s) := by
  refine need_withWaiting ws .pos s.pos fun p => need_withWaiting ws .lim s.lim fun l =>
    need_withWaiting ws .winEnd s.winEnd fun w => ?_
  rw [answerWithWaiting_ite]
  rfl

end

/-- The step of a running request commutes with replacing the waiting list, whatever it answers. Only
`stepResting` looks at the list. -/
theorem step_withWaiting_of_running {s : State} (hr : s.resetLine = false) (hrun : s.Running) (ws : List Request) :
    step (s.withWaiting ws) = answerWithWaiting ws (step s) := by
  obtain ⟨sub, hph⟩ := hrun
  have hr' : (s.withWaiting ws).resetLine = false := hr
  cases sub with
  | desc1 => rw [step_desc1 hr' hph, step_desc1 hr hph, fetch_withWaiting]
  | cmd1 => rw [step_cmd1 hr' hph, step_cmd1 hr hph, fetch_withWaiting]
  | frame => rw [step_frame hr' hph, step_frame hr hph, stepFrame_withWaiting]
  | ploop => rw [step_ploop hr' hph, step_ploop hr hph, stepWindow_withWaiting]
  | tdesc => rw [step_tdesc hr' hph, step_tdesc hr hph, fetch_withWaiting]
  | tloop => rw [step_tloop hr' hph, step_tloop hr hph, stepRegion_withWaiting]
  | pad => rw [step_pad hr' hph, step_pad hr hph, stepPadding_withWaiting]

/-- Settles O7: the step of a running request commutes with replacing the waiting list. -/
theorem runningIgnoresWaitingRequests : Obligations.RunningIgnoresWaitingRequests := by
  intro s t ws hr hrun hstep
  have hcomm := step_withWaiting_of_running hr hrun ws
  rwa [hstep, answerWithWaiting_next] at hcomm

end Sys2Proof.Machine

/-! # Proofs of the family spec/10_state.md

What the requester observes (R27), the cursor of a running request (R21), and that the machine goes on
from every state with the invariant (R28). -/

namespace Sys2Proof.Machine

/-! ## Observation -/

theorem State.status_congr {s t : State} (hp : t.phase = s.phase) : t.status = s.status := by
  simp only [State.status, hp]

theorem State.response_congr {s t : State} (hp : t.phase = s.phase) (hr : t.result = s.result) (he : t.err = s.err) :
    t.response = s.response := by
  simp only [State.response, hp, hr, he]

/-- Settles O8: the status and the response read no working register. -/
theorem workingRegistersAreNotObservable : Obligations.WorkingRegistersAreNotObservable := fun _ _ hp hr he =>
  Prod.ext (State.status_congr hp) (State.response_congr hp hr he)

/-! ## The cursor

Each operation of a running request that answers a next state leaves the cursor where it was or moves
it on. -/

/-- Both states have a cursor, and that of `t` is at or after that of `s`. -/
def CursorAdvances (s t : State) : Prop := ∃ p p', s.pos = some p ∧ t.pos = some p' ∧ p ≤ p'

theorem cursorAdvances_of_pos_eq {s t : State} {p : Nat} (hp : s.pos = some p) (ht : t.pos = s.pos) :
    CursorAdvances s t := ⟨p, p, hp, ht.trans hp, le_rfl⟩

theorem decodedCommand_pos {c : Command} {q : Nat} {s t : State} (h : decodedCommand c q s = .next t) :
    t.pos = some q := by
  obtain ⟨-, rfl⟩ | ⟨-, rfl⟩ := decodedCommand_eq_next h <;> rfl

theorem decodedDescriptor_cursorAdvances {d : Descriptor} {s t : State} (h : decodedDescriptor d s = .next t) :
    CursorAdvances s t := by
  obtain ⟨p, hp, ⟨-, rfl⟩ | ⟨-, l, -, rfl⟩⟩ := decodedDescriptor_eq_next h
  · exact ⟨p, p + 8, hp, rfl, by omega⟩
  · exact ⟨p, p + 8, hp, rfl, by omega⟩

/-- An instruction moves the cursor to the end of its item, or raises and leaves it. -/
theorem exec_cursorAdvances {i : Instr} {s t : State} (h : exec i s = .next t) : CursorAdvances s t := by
  cases hf : i.format with
  | vifcode =>
    obtain ⟨p, hp, h | rfl⟩ := exec_command_eq_next hf h
    · exact ⟨p, _, hp, decodedCommand_pos h, by omega⟩
    · exact cursorAdvances_of_pos_eq hp rfl
  | dmatag =>
    obtain ⟨d, hd⟩ := tagRecord_isSome hf
    rw [exec_of_tagRecord hd] at h
    exact decodedDescriptor_cursorAdvances h

theorem fetch_cursorAdvances {f : Format} {s t : State} (h : fetch f exec s = .next t) : CursorAdvances s t := by
  obtain ⟨p, l, hp, -, ⟨-, rfl⟩ | ⟨-, e, -, rfl⟩ | ⟨-, i, rest, -, -, -, hrun⟩⟩ := fetch_eq_next h
  · exact cursorAdvances_of_pos_eq hp rfl
  · exact cursorAdvances_of_pos_eq hp rfl
  · exact exec_cursorAdvances hrun

/-- External framing starts the window at the cursor, self-describing framing after its 4-byte header. -/
theorem stepFrame_cursorAdvances {s t : State} (h : stepFrame s = .next t) : CursorAdvances s t := by
  obtain ⟨op, p, l, -, hp, -, ⟨-, r, -, rfl⟩ | ⟨-, -, rfl⟩ | ⟨-, -, rfl⟩⟩ := stepFrame_eq_next h
  · exact ⟨p, p, hp, rfl, le_rfl⟩
  · exact ⟨p, p + 4, hp, rfl, by omega⟩
  · exact cursorAdvances_of_pos_eq hp rfl

theorem stepWindow_cursorAdvances {s t : State} (h : stepWindow s = .next t) : CursorAdvances s t := by
  obtain ⟨p, w, hp, -, ⟨-, rfl⟩ | ⟨-, l, rest, -, rfl⟩⟩ := stepWindow_eq_next h
  · exact cursorAdvances_of_pos_eq hp rfl
  · exact cursorAdvances_of_pos_eq hp rfl

theorem stepRegionEnd_cursorAdvances {s t : State} (h : stepRegionEnd s = .next t) : CursorAdvances s t := by
  obtain ⟨p, op, d, l, rest, hp, -, -, -, ⟨-, rfl⟩ | ⟨-, rfl⟩⟩ := stepRegionEnd_eq_next h
  · exact cursorAdvances_of_pos_eq hp rfl
  · exact cursorAdvances_of_pos_eq hp rfl

theorem stepPadding_cursorAdvances {s t : State} (h : stepPadding s = .next t) : CursorAdvances s t := by
  obtain ⟨p, l, w, hp, -, -, ⟨-, rfl⟩ | ⟨-, rfl⟩⟩ := stepPadding_eq_next h
  · exact ⟨p, p + (w - p), hp, rfl, by omega⟩
  · exact cursorAdvances_of_pos_eq hp rfl

theorem State.Running.not_resting {s : State} (hrun : s.Running) : ¬ s.Resting := by
  obtain ⟨sub, hph⟩ := hrun
  simp [State.Resting, hph]

/-- Settles O48: every phase of a running request leaves the cursor or moves it on. -/
theorem cursorNeverMovesBack : Obligations.CursorNeverMovesBack := by
  intro s t hr hrun hstep
  obtain ⟨hreset, -⟩ | ⟨-, ⟨hrest, -⟩ | ⟨-, h⟩ | ⟨-, h⟩ | ⟨-, h⟩ | ⟨-, h⟩ | ⟨-, p, e, -, -, ⟨-, h⟩ | ⟨-, h⟩⟩ | ⟨-, h⟩⟩ :=
    step_eq_next hstep
  · exact absurd hreset (by simp [hr])
  · exact absurd hrest hrun.not_resting
  · exact fetch_cursorAdvances h
  · exact fetch_cursorAdvances h
  · exact stepFrame_cursorAdvances h
  · exact stepWindow_cursorAdvances h
  · exact fetch_cursorAdvances h
  · exact stepRegionEnd_cursorAdvances h
  · exact stepPadding_cursorAdvances h

/-! ## The machine goes on

Each operation answers a next state where the registers it reads hold a value. The invariant gives
those values in every phase. -/

section
variable {s : State} {p l : Nat}

theorem popLimit_cons {x : Nat} {rest : List Nat} (h : s.limSave = x :: rest) (k : State → Result) :
    popLimit s k = k { s with lim := some x, limSave := rest } := by
  simp only [popLimit, h]

theorem stepResting_answers (s : State) : ∃ t, stepResting s = .next t := by
  unfold stepResting
  split
  · exact ⟨_, rfl⟩
  · split
    · exact ⟨_, rfl⟩
    · exact ⟨_, rfl⟩

/-! ### Decoding -/

theorem decodedCommand_answers (hph : s.phase = .busy .cmd1 ∨ s.phase = .busy .tloop) (c : Command) (q : Nat) :
    ∃ t, decodedCommand c q s = .next t := by
  obtain hph | hph := hph
  · exact ⟨_, decodedCommand_cmd1 hph c q⟩
  · exact ⟨_, decodedCommand_tloop hph c q⟩

theorem decodedDescriptor_answers (hp : s.pos = some p) (hl : s.lim = some l)
    (hph : s.phase = .busy .desc1 ∨ s.phase = .busy .tdesc) (d : Descriptor) :
    ∃ t, decodedDescriptor d s = .next t := by
  obtain hph | hph := hph
  · exact ⟨_, decodedDescriptor_desc1 hph hp d⟩
  · exact ⟨_, decodedDescriptor_tdesc hph hp hl d⟩

theorem exec_command_answers {i : Instr} (hf : i.format = .vifcode) (hp : s.pos = some p) (hl : s.lim = some l)
    (hfit : p + 4 ≤ l) (hph : s.phase = .busy .cmd1 ∨ s.phase = .busy .tloop) : ∃ t, exec i s = .next t := by
  rw [exec_command hf hp hl hfit]
  split
  · exact decodedCommand_answers hph _ _
  · exact ⟨_, rfl⟩

theorem exec_descriptor_answers {i : Instr} (hf : i.format = .dmatag) (hp : s.pos = some p) (hl : s.lim = some l)
    (hph : s.phase = .busy .desc1 ∨ s.phase = .busy .tdesc) : ∃ t, exec i s = .next t := by
  obtain ⟨d, hd⟩ := tagRecord_isSome hf
  rw [exec_of_tagRecord hd]
  exact decodedDescriptor_answers hp hl hph d

/-- A fetch raises, or answers what the instruction it runs answers. -/
theorem fetch_answers {f : Format} {run : Instr → State → Result} (hp : s.pos = some p) (hl : s.lim = some l)
    (hrun : p + f.size ≤ l → ∀ i, i.format = f → ∃ t, run i s = .next t) : ∃ t, fetch f run s = .next t := by
  by_cases hfit : p + f.size ≤ l
  · cases hd : decode f (s.srcBytes p f.size) with
    | error e => exact ⟨_, fetch_rejected hp hl hfit hd run⟩
    | ok d =>
      rw [fetch_ok hp hl hfit hd run]
      exact hrun hfit d.1 (decode_ok hd).1
  · exact ⟨_, fetch_short hp hl (Nat.lt_of_not_le hfit) run⟩

theorem fetch_command_answers (hp : s.pos = some p) (hl : s.lim = some l)
    (hph : s.phase = .busy .cmd1 ∨ s.phase = .busy .tloop) : ∃ t, fetch .vifcode exec s = .next t :=
  fetch_answers hp hl fun hfit _ hf => exec_command_answers hf hp hl hfit hph

theorem fetch_descriptor_answers (hp : s.pos = some p) (hl : s.lim = some l)
    (hph : s.phase = .busy .desc1 ∨ s.phase = .busy .tdesc) : ∃ t, fetch .dmatag exec s = .next t :=
  fetch_answers hp hl fun _ _ hf => exec_descriptor_answers hf hp hl hph

/-! ### The phases of a packet and of a tag region -/

theorem stepFrame_answers {r : Request} (hreq : s.req = some r) (hop : s.op = some r.op) (hp : s.pos = some p)
    (hl : s.lim = some l) (hpacket : isPacket r.op) : ∃ t, stepFrame s = .next t := by
  obtain hext | hself := hpacket
  · exact ⟨openWindow p (p + r.n) l s, by simp [stepFrame, hreq, hop, hp, hl, hext]⟩
  · simp only [stepFrame, hop, hp, hl, need_some, hself]
    split
    · exact ⟨_, rfl⟩
    · exact ⟨_, rfl⟩

theorem stepWindow_answers {w x : Nat} {rest : List Nat} (hp : s.pos = some p) (hw : s.winEnd = some w)
    (hsave : s.limSave = x :: rest) : ∃ t, stepWindow s = .next t := by
  simp only [stepWindow, hp, hw, need_some, popLimit_cons hsave]
  split
  · exact ⟨_, rfl⟩
  · exact ⟨_, rfl⟩

theorem stepRegionEnd_answers {op : BitVec 3} {d : Descriptor} {x : Nat} {rest : List Nat} (hp : s.pos = some p)
    (hop : s.op = some op) (hd : s.desc = some d) (hsave : s.limSave = x :: rest) :
    ∃ t, stepRegionEnd s = .next t := by
  simp only [stepRegionEnd, hp, hop, hd, need_some, popLimit_cons hsave]
  split
  · exact ⟨_, rfl⟩
  · exact ⟨_, rfl⟩

theorem stepPadding_answers {w : Nat} (hp : s.pos = some p) (hl : s.lim = some l) (hw : s.winEnd = some w) :
    ∃ t, stepPadding s = .next t := by
  simp only [stepPadding, hp, hl, hw, need_some]
  split
  · exact ⟨_, rfl⟩
  · exact ⟨_, rfl⟩

/-! ### From the invariant -/

/-- Inside a tag region the limit in force before it is saved, whatever the request. -/
theorem State.InRegion.limSave_cons {r : Request} {ts e : Nat} {d : Descriptor} (h : s.InRegion r p l ts e d) :
    ∃ x rest, s.limSave = x :: rest := by
  obtain ⟨-, -, hsave, -⟩ | ⟨-, w, -, hsave, -⟩ := h.limits
  · exact ⟨_, _, hsave⟩
  · exact ⟨_, _, hsave⟩

theorem stepRegion_answers {r : Request} {ts e : Nat} {d : Descriptor} (hph : s.phase = .busy .tloop)
    (hb : s.Busy .tloop r p l) (hreg : s.InRegion r p l ts e d) : ∃ t, stepRegion exec s = .next t := by
  rw [stepRegion_eq hb.pos hreg.tagEnd]
  split
  · exact fetch_command_answers hb.pos hb.lim (.inr hph)
  · obtain ⟨x, rest, hsave⟩ := hreg.limSave_cons
    exact stepRegionEnd_answers hb.pos hb.op hreg.desc hsave

/-- Each sub-phase reads only registers that `State.Busy` gives a value there. -/
theorem State.Busy.step_answers {sub : SubPhase} {r : Request} (hb : s.Busy sub r p l) (hr : s.resetLine = false)
    (hph : s.phase = .busy sub) : ∃ t, step s = .next t := by
  have hsub := hb.sub
  cases sub with
  | desc1 =>
    rw [step_desc1 hr hph]
    exact fetch_descriptor_answers hb.pos hb.lim (.inl hph)
  | cmd1 =>
    rw [step_cmd1 hr hph]
    exact fetch_command_answers hb.pos hb.lim (.inl hph)
  | frame =>
    obtain ⟨hpacket, -⟩ := hsub
    rw [step_frame hr hph]
    exact stepFrame_answers hb.req hb.op hb.pos hb.lim hpacket
  | ploop =>
    obtain ⟨w, hwin, -⟩ := hsub
    rw [step_ploop hr hph]
    exact stepWindow_answers hb.pos hwin.winEnd hwin.limSave
  | tdesc =>
    rw [step_tdesc hr hph]
    exact fetch_descriptor_answers hb.pos hb.lim (.inr hph)
  | tloop =>
    obtain ⟨ts, e, d, hreg⟩ := hsub
    rw [step_tloop hr hph]
    exact stepRegion_answers hph hb hreg
  | pad =>
    obtain ⟨w, hwin, -⟩ := hsub
    rw [step_pad hr hph]
    exact stepPadding_answers hb.pos hb.lim hwin.winEnd

theorem State.Inv.busy {sub : SubPhase} (h : s.Inv) (hph : s.phase = .busy sub) : ∃ r p l, s.Busy sub r p l := by
  obtain ⟨-, hphase⟩ := h
  simpa only [hph] using hphase

theorem State.Resting.step_answers (hrest : s.Resting) (hr : s.resetLine = false) : ∃ t, step s = .next t := by
  rw [step_of_resting hr hrest]
  exact stepResting_answers s

end

/-- Settles O46: reset and rest need no register, and a running request finds the registers it reads. -/
theorem invariantStatesAlwaysStep : Obligations.InvariantStatesAlwaysStep := by
  intro s hinv
  cases hr : s.resetLine with
  | true => exact ⟨_, step_of_reset hr⟩
  | false =>
    cases hph : s.phase with
    | idle => exact State.Resting.step_answers (.inl hph) hr
    | done => exact State.Resting.step_answers (.inr (.inl hph)) hr
    | error => exact State.Resting.step_answers (.inr (.inr hph)) hr
    | busy sub =>
      obtain ⟨r, p, l, hb⟩ := hinv.busy hph
      exact hb.step_answers hr hph

end Sys2Proof.Machine

/-! # Proofs of the family spec/20_memory.md

The source is only read (R38, R45): no instruction and no step of a running request changes a byte of it,
nor the request it comes with. -/

namespace Sys2Proof.Machine

/-! ## What an operation leaves alone

A running request and its source stand in the registers of `State.served`. An instruction also leaves the
packet around its tag alone: `State.enclosing`. One lemma per operation says which of the two it keeps. -/

/-- The request being served, the requests that wait, and the inputs. A read of the source depends on
these fields alone. -/
def State.served (s : State) : Option (BitVec 3) × Option Request × List Request × Bool × Bool × Nat :=
  (s.op, s.req, s.requests, s.resetLine, s.sourceChanged, s.changeEpoch)

/-- What lies around the item at the cursor: the request with its inputs, and the packet's window and
finished tags. -/
def State.enclosing (s : State) :
    (Option (BitVec 3) × Option Request × List Request × Bool × Bool × Nat) × Option Nat × List Tag :=
  (s.served, s.winEnd, s.tags)

section
variable {s t : State}

theorem State.served_eq_iff : t.served = s.served ↔
    t.op = s.op ∧ t.req = s.req ∧ t.requests = s.requests ∧ t.resetLine = s.resetLine ∧
      t.sourceChanged = s.sourceChanged ∧ t.changeEpoch = s.changeEpoch := by
  simp only [State.served, Prod.mk.injEq]

theorem State.enclosing_eq_iff : t.enclosing = s.enclosing ↔
    t.served = s.served ∧ t.winEnd = s.winEnd ∧ t.tags = s.tags := by
  simp only [State.enclosing, Prod.mk.injEq]

theorem State.served_eq_of_enclosing_eq (h : t.enclosing = s.enclosing) : t.served = s.served :=
  (State.enclosing_eq_iff.mp h).1

theorem State.srcByte_eq_of_served_eq (h : t.served = s.served) (a : Nat) : t.srcByte a = s.srcByte a := by
  obtain ⟨-, hreq, -, -, hchanged, hepoch⟩ := State.served_eq_iff.mp h
  exact State.srcByte_congr hreq hchanged hepoch a

@[simp] theorem State.raise_served (s : State) (e : DecodeError) : (s.raise e).served = s.served := rfl

@[simp] theorem State.raise_enclosing (s : State) (e : DecodeError) : (s.raise e).enclosing = s.enclosing := rfl

@[simp] theorem openWindow_served (start winEnd l : Nat) (s : State) :
    (openWindow start winEnd l s).served = s.served := rfl

/-! ### Instructions -/

theorem decodedCommand_keeps_enclosing {c : Command} {q : Nat} (h : decodedCommand c q s = .next t) :
    t.enclosing = s.enclosing := by
  obtain ⟨-, rfl⟩ | ⟨-, rfl⟩ := decodedCommand_eq_next h
  · rfl
  · rfl

theorem decodedDescriptor_keeps_enclosing {d : Descriptor} (h : decodedDescriptor d s = .next t) :
    t.enclosing = s.enclosing := by
  obtain ⟨p, -, ⟨-, rfl⟩ | ⟨-, l, -, rfl⟩⟩ := decodedDescriptor_eq_next h
  · rfl
  · rfl

/-- An instruction delivers its record or raises, and neither reaches outside the item. -/
theorem exec_keeps_enclosing {i : Instr} (h : exec i s = .next t) : t.enclosing = s.enclosing := by
  cases hf : i.format with
  | vifcode =>
    obtain ⟨p, -, h | rfl⟩ := exec_command_eq_next hf h
    · exact decodedCommand_keeps_enclosing h
    · exact s.raise_enclosing _
  | dmatag =>
    obtain ⟨d, hd⟩ := tagRecord_isSome hf
    rw [exec_of_tagRecord hd] at h
    exact decodedDescriptor_keeps_enclosing h

theorem fetch_keeps_enclosing {f : Format} (h : fetch f exec s = .next t) : t.enclosing = s.enclosing := by
  obtain ⟨p, l, -, -, ⟨-, rfl⟩ | ⟨-, e, -, rfl⟩ | ⟨-, i, rest, -, -, -, hrun⟩⟩ := fetch_eq_next h
  · exact s.raise_enclosing _
  · exact s.raise_enclosing _
  · exact exec_keeps_enclosing hrun

/-! ### The phases of a running request

Opening the window writes `WIN_END` and the end of a tag writes `TAGS`, so these keep `State.served` only. -/

theorem fetch_keeps_served {f : Format} (h : fetch f exec s = .next t) : t.served = s.served :=
  State.served_eq_of_enclosing_eq (fetch_keeps_enclosing h)

theorem stepFrame_keeps_served (h : stepFrame s = .next t) : t.served = s.served := by
  obtain ⟨op, p, l, -, -, -, ⟨-, r, -, rfl⟩ | ⟨-, -, rfl⟩ | ⟨-, -, rfl⟩⟩ := stepFrame_eq_next h
  · exact openWindow_served ..
  · exact openWindow_served ..
  · exact s.raise_served _

theorem stepWindow_keeps_served (h : stepWindow s = .next t) : t.served = s.served := by
  obtain ⟨p, w, -, -, ⟨-, rfl⟩ | ⟨-, l, rest, -, rfl⟩⟩ := stepWindow_eq_next h
  · rfl
  · rfl

theorem stepRegionEnd_keeps_served (h : stepRegionEnd s = .next t) : t.served = s.served := by
  obtain ⟨p, op, d, l, rest, -, -, -, -, ⟨-, rfl⟩ | ⟨-, rfl⟩⟩ := stepRegionEnd_eq_next h
  · rfl
  · rfl

theorem stepPadding_keeps_served (h : stepPadding s = .next t) : t.served = s.served := by
  obtain ⟨p, l, w, -, -, -, ⟨-, rfl⟩ | ⟨-, rfl⟩⟩ := stepPadding_eq_next h
  · rfl
  · exact s.raise_served _

/-- Only reset and the acceptance of a request change what is served, and a running request does neither. -/
theorem step_keeps_served_of_running (hr : s.resetLine = false) (hrun : s.Running) (h : step s = .next t) :
    t.served = s.served := by
  obtain ⟨hreset, -⟩ | ⟨-, ⟨hrest, -⟩ | ⟨-, h⟩ | ⟨-, h⟩ | ⟨-, h⟩ | ⟨-, h⟩ | ⟨-, p, e, -, -, ⟨-, h⟩ | ⟨-, h⟩⟩ | ⟨-, h⟩⟩ :=
    step_eq_next h
  · exact absurd hreset (by simp [hr])
  · exact absurd hrest hrun.not_resting
  · exact fetch_keeps_served h
  · exact fetch_keeps_served h
  · exact stepFrame_keeps_served h
  · exact stepWindow_keeps_served h
  · exact fetch_keeps_served h
  · exact stepRegionEnd_keeps_served h
  · exact stepPadding_keeps_served h

end

/-- Settles O21: an instruction keeps all that encloses its item, and the source is read from there. -/
theorem instructionsLeaveSourceAndWindow : Obligations.InstructionsLeaveSourceAndWindow := by
  intro i s t h
  obtain ⟨hserved, hwin, htags⟩ := State.enclosing_eq_iff.mp (exec_keeps_enclosing h)
  obtain ⟨hop, hreq, hrequests, hreset, hchanged, hepoch⟩ := State.served_eq_iff.mp hserved
  exact ⟨State.srcByte_eq_of_served_eq hserved, hreq, hrequests, hop, hwin, htags, hreset, hchanged, hepoch⟩

/-- Settles O49: every phase of a running request keeps the request, and the source with it. -/
theorem noStepWritesTheSource : Obligations.NoStepWritesTheSource := by
  intro s t hr hrun h
  have hserved := step_keeps_served_of_running hr hrun h
  obtain ⟨hop, hreq, -⟩ := State.served_eq_iff.mp hserved
  exact ⟨State.srcByte_eq_of_served_eq hserved, hreq, hop⟩

end Sys2Proof.Machine

/-! # Proofs of the family spec/30_encoding.md

Decoding of an encoding gives the instruction back (R66). A header and a descriptor are words of fields:
first what each field of a word is, then what the decoder makes of the fields, then that the encoder writes
fields the decoder makes the instruction of. -/

namespace Sys2Proof

/-! ## Fields of a word -/

theorem field_eq_iff {m n lo hi len : Nat} (w : BitVec m) (v : BitVec n) :
    field w lo len = field v hi len ↔ w.toNat / 2 ^ lo % 2 ^ len = v.toNat / 2 ^ hi % 2 ^ len := by
  rw [← BitVec.toNat_inj, field_toNat, field_toNat]

theorem field_ofNat_eq_iff {n v lo len : Nat} (x : BitVec len) :
    field (BitVec.ofNat n v) lo len = x ↔ v % 2 ^ n / 2 ^ lo % 2 ^ len = x.toNat := by
  rw [← BitVec.toNat_inj, field_toNat, BitVec.toNat_ofNat]

/-- A field of a field is a field of the word. -/
theorem field_field {n : Nat} (w : BitVec n) {lo outer inner len : Nat} (h : inner + len ≤ outer) :
    field (field w lo outer) inner len = field w (lo + inner) len := by
  obtain ⟨k, rfl⟩ := Nat.exists_eq_add_of_le h
  rw [field_eq_iff, field_toNat, Nat.add_assoc, Nat.pow_add 2 inner, Nat.mod_mul_right_div_self, Nat.pow_add 2 len,
    Nat.mod_mul_right_mod, Nat.div_div_eq_div_mul, Nat.pow_add]

theorem ofBool_beq_one (b : Bool) : (BitVec.ofBool b == 1) = b := by
  cases b <;> rfl

/-- The bytes of a number, read back as one word, give the number's word. -/
theorem ofNat_leNat_leBytes (k v : Nat) : BitVec.ofNat (8 * k) (leNat (leBytes k v)) = BitVec.ofNat (8 * k) v := by
  apply BitVec.eq_of_toNat_eq
  rw [BitVec.toNat_ofNat, BitVec.toNat_ofNat, leNat_leBytes, Nat.pow_mul, Nat.mod_mod]

theorem decode_vifcode_leBytes {v : Nat} {i : Instr} (rest : List Byte)
    (h : decodeCommand (BitVec.ofNat 32 v) = .ok i) : decode .vifcode (leBytes 4 v ++ rest) = .ok (i, rest) := by
  have hword : decodeCommand (BitVec.ofNat 32 (leNat (leBytes 4 v))) = .ok i := (ofNat_leNat_leBytes 4 v).symm ▸ h
  simp only [leBytes, List.cons_append, List.nil_append, decode] at hword ⊢
  rw [hword]

theorem decode_dmatag_leBytes (v : Nat) (rest : List Byte) :
    decode .dmatag (leBytes 8 v ++ rest) = .ok (decodeDescriptor (BitVec.ofNat 64 v), rest) :=
  congrArg (fun w => Except.ok (decodeDescriptor w, rest)) (ofNat_leNat_leBytes 8 v)

/-! ## What the decoder makes of a header's fields -/

/-- `Unpack`'s operands from `immediate` and `num` (R59). -/
def unpackOf (make : BitVec 10 → Bool → Bool → Nat → Instr) (imm : BitVec 16) (num : Byte) : Instr :=
  make (field imm 0 10) (field imm 14 1 == 1) (field imm 15 1 == 1) (numEffOf num)

/-- The instruction of an opcode with a header's `immediate` and `num` (R56 to R60). -/
def Opcode.instrOf : Opcode → BitVec 16 → Byte → Instr
  | .nop, _, _ => .nop
  | .stcycl, imm, _ => .stcycl (field imm 0 8) (field imm 8 8)
  | .stmod, imm, _ => .stmod (field imm 0 2)
  | .flush, _, _ => .flush
  | .mscnt, _, _ => .mscnt
  | .strow, _, _ => .strow
  | .mpg, imm, num => .mpg (mpgAddressOf imm) (mpgNumOf num)
  | .unpackS32, imm, num => unpackOf .unpackS32 imm num
  | .unpackV2x16, imm, num => unpackOf .unpackV2x16 imm num
  | .unpackV4x32, imm, num => unpackOf .unpackV4x32 imm num
  | .unpackV4x16, imm, num => unpackOf .unpackV4x16 imm num
  | .unpackV4x8, imm, num => unpackOf .unpackV4x8 imm num

theorem decodeCommand_of_known {h : Word} {o : Opcode} (ho : opcodeOf (field h 24 8) = some o) :
    decodeCommand h = .ok (o.instrOf (field h 0 16) (field h 16 8)) := by
  cases o <;> simp only [decodeCommand, ho, Opcode.instrOf, unpackOf]

theorem decodeCommand_of_unknown {h : Word} (ho : opcodeOf (field h 24 8) = none) :
    decodeCommand h = .error (.unknownOpcode (field h 24 8)) := by
  simp only [decodeCommand, ho]

/-! ## The twelve opcodes -/

theorem opcodeOf_eq_none_iff (cmd : Byte) : opcodeOf cmd = none ↔ cmd ∉ opcodeTable.map Prod.fst := by
  simp only [opcodeOf, List.lookup_eq_none_iff, List.mem_map, bne_iff_ne, ne_eq, not_exists, not_and]
  exact ⟨fun h p hp e => h p hp e.symm, fun h p hp e => h p hp e.symm⟩

theorem field_opcode (h : Word) : field h 24 8 = BitVec.ofNat 8 (h.toNat / 2 ^ 24) := by
  rw [field, Nat.shiftRight_eq_div_pow]

/-- Settles O11: the bytes of the statement are the rows of the table, and the table alone decides. -/
theorem exactlyTwelveOpcodesAreKnown : Obligations.ExactlyTwelveOpcodesAreKnown := by
  intro h
  rw [← field_opcode]
  refine ⟨fun hmem => ?_, fun hmem => decodeCommand_of_unknown ((opcodeOf_eq_none_iff _).mpr hmem)⟩
  cases ho : opcodeOf (field h 24 8) with
  | none => exact absurd hmem ((opcodeOf_eq_none_iff _).mp ho)
  | some o => exact ⟨_, decodeCommand_of_known ho⟩

/-! ## Ignored bits -/

theorem decodeCommand_of_topByte {h : Word} (o : Opcode) (ht : h.toNat / 2 ^ 24 = o.byte.toNat) :
    decodeCommand h = .ok (o.instrOf (field h 0 16) (field h 16 8)) := by
  apply decodeCommand_of_known
  rw [field_opcode, ht, BitVec.ofNat_toNat, BitVec.setWidth_eq, opcodeOf_byte]

/-- Headers of one known opcode decode alike where the opcode makes one instruction of their fields. -/
theorem decodeCommand_congr {h h' : Word} (o : Opcode) (heq : h.toNat / 2 ^ 24 = h'.toNat / 2 ^ 24)
    (ht : h.toNat / 2 ^ 24 = o.byte.toNat)
    (hi : o.instrOf (field h 0 16) (field h 16 8) = o.instrOf (field h' 0 16) (field h' 16 8)) :
    decodeCommand h = decodeCommand h' := by
  rw [decodeCommand_of_topByte o ht, decodeCommand_of_topByte o (heq ▸ ht), hi]

/-- The three parts of `immediate` that `Unpack` keeps are fields of the header (R59). -/
theorem unpackOf_header (make : BitVec 10 → Bool → Bool → Nat → Instr) (h : Word) (num : Byte) :
    unpackOf make (field h 0 16) num =
      make (field h 0 10) (field (field h 14 2) 0 1 == 1) (field (field h 14 2) 1 1 == 1) (numEffOf num) := by
  rw [unpackOf, field_field h (by decide), field_field h (by decide), field_field h (by decide),
    field_field h (by decide), field_field h (by decide)]

/-- `Unpack` ignores `immediate[13:10]` (R60). -/
theorem unpackOf_congr (make : BitVec 10 → Bool → Bool → Nat → Instr) {h h' : Word}
    (haddress : h.toNat % 2 ^ 10 = h'.toNat % 2 ^ 10) (hflags : h.toNat / 2 ^ 14 % 4 = h'.toNat / 2 ^ 14 % 4)
    (hnum : h.toNat / 2 ^ 16 % 2 ^ 8 = h'.toNat / 2 ^ 16 % 2 ^ 8) :
    unpackOf make (field h 0 16) (field h 16 8) = unpackOf make (field h' 0 16) (field h' 16 8) := by
  have haddress' : field h 0 10 = field h' 0 10 := by rw [field_eq_iff]; omega
  have hflags' : field h 14 2 = field h' 14 2 := (field_eq_iff h h').mpr hflags
  have hnum' : field h 16 8 = field h' 16 8 := (field_eq_iff h h').mpr hnum
  rw [unpackOf_header, unpackOf_header, haddress', hflags', hnum']

/-- Settles O12: in each class the opcode makes one instruction of both headers' fields. -/
theorem ignoredHeaderBitsDoNotMatter : Obligations.IgnoredHeaderBitsDoNotMatter := by
  intro h h' heq
  refine ⟨fun hmem => ?_, fun hop himm => ?_, fun hop hmode => ?_, fun hmem haddress hflags hnum => ?_⟩
  · simp only [List.mem_cons, List.not_mem_nil, or_false] at hmem
    obtain hop | hop | hop | hop := hmem
    · exact decodeCommand_congr .nop heq hop rfl
    · exact decodeCommand_congr .flush heq hop rfl
    · exact decodeCommand_congr .mscnt heq hop rfl
    · exact decodeCommand_congr .strow heq hop rfl
  · have himm' : field h 0 16 = field h' 0 16 := by rw [field_eq_iff]; omega
    exact decodeCommand_congr .stcycl heq hop (by rw [himm']; rfl)
  · have hmode' : field (field h 0 16) 0 2 = field (field h' 0 16) 0 2 := by
      rw [field_field h (by decide), field_field h' (by decide), field_eq_iff]; omega
    exact decodeCommand_congr .stmod heq hop (congrArg Instr.stmod hmode')
  · simp only [List.mem_cons, List.not_mem_nil, or_false] at hmem
    obtain hop | hop | hop | hop | hop := hmem
    · exact decodeCommand_congr .unpackS32 heq hop (unpackOf_congr _ haddress hflags hnum)
    · exact decodeCommand_congr .unpackV2x16 heq hop (unpackOf_congr _ haddress hflags hnum)
    · exact decodeCommand_congr .unpackV4x32 heq hop (unpackOf_congr _ haddress hflags hnum)
    · exact decodeCommand_congr .unpackV4x16 heq hop (unpackOf_congr _ haddress hflags hnum)
    · exact decodeCommand_congr .unpackV4x8 heq hop (unpackOf_congr _ haddress hflags hnum)

/-! ## Headers written by the encoder -/

/-- The three parts of a header come back from its word (R54). -/
theorem decodeCommand_encodeHeader (o : Opcode) (imm : BitVec 16) (num : Byte) :
    decodeCommand (BitVec.ofNat 32 (encodeHeader imm.toNat num.toNat o.byte.toNat)) = .ok (o.instrOf imm num) := by
  have himm := imm.isLt
  have hnum := num.isLt
  have hcmd := o.byte.isLt
  have hfieldImm : field (BitVec.ofNat 32 (encodeHeader imm.toNat num.toNat o.byte.toNat)) 0 16 = imm := by
    rw [field_ofNat_eq_iff, encodeHeader]; omega
  have hfieldNum : field (BitVec.ofNat 32 (encodeHeader imm.toNat num.toNat o.byte.toNat)) 16 8 = num := by
    rw [field_ofNat_eq_iff, encodeHeader]; omega
  have hfieldCmd : field (BitVec.ofNat 32 (encodeHeader imm.toNat num.toNat o.byte.toNat)) 24 8 = o.byte := by
    rw [field_ofNat_eq_iff, encodeHeader]; omega
  rw [decodeCommand_of_known (hfieldCmd ▸ opcodeOf_byte o), hfieldImm, hfieldNum]

/-- `num = 0` stands for 256 units (R55). -/
theorem numEffOf_ofNat_mod {n : Nat} (hn : numEffOk n = true) : numEffOf (BitVec.ofNat 8 (n % 256)) = n := by
  simp only [numEffOk, Bool.and_eq_true, decide_eq_true_eq] at hn
  rw [numEffOf, BitVec.toNat_ofNat]
  split <;> omega

theorem unpackImmediate_lt (a : BitVec 10) (z t : Bool) : unpackImmediate a z t < 2 ^ 16 := by
  have ha := a.isLt
  have hz := z.toNat_lt
  have ht := t.toNat_lt
  rw [unpackImmediate]
  omega

/-- `Unpack`'s operands come back from the `immediate` and the `num` the encoder writes (R59, R66). -/
theorem unpackOf_unpackImmediate (make : BitVec 10 → Bool → Bool → Nat → Instr) (a : BitVec 10) (z t : Bool)
    {n : Nat} (hn : numEffOk n = true) :
    unpackOf make (BitVec.ofNat 16 (unpackImmediate a z t)) (BitVec.ofNat 8 (n % 256)) = make a z t n := by
  have ha := a.isLt
  have hz := z.toNat_lt
  have ht := t.toNat_lt
  have haddress : field (BitVec.ofNat 16 (unpackImmediate a z t)) 0 10 = a := by
    rw [field_ofNat_eq_iff, unpackImmediate]; omega
  have hzero : field (BitVec.ofNat 16 (unpackImmediate a z t)) 14 1 = BitVec.ofBool z := by
    rw [field_ofNat_eq_iff, unpackImmediate, BitVec.toNat_ofBool]; omega
  have htops : field (BitVec.ofNat 16 (unpackImmediate a z t)) 15 1 = BitVec.ofBool t := by
    rw [field_ofNat_eq_iff, unpackImmediate, BitVec.toNat_ofBool]; omega
  rw [unpackOf, haddress, hzero, htops, ofBool_beq_one, ofBool_beq_one, numEffOf_ofNat_mod hn]

/-- The exact address divided by 8 is the `immediate` (R58). -/
theorem mpgAddressOf_ofNat_div {a : BitVec 19} (ha : mpgAddressOk a = true) :
    mpgAddressOf (BitVec.ofNat 16 (a.toNat / 8)) = a := by
  have hlt := a.isLt
  rw [mpgAddressOk, beq_iff_eq] at ha
  apply BitVec.eq_of_toNat_eq
  rw [mpgAddressOf_toNat, BitVec.toNat_ofNat]
  omega

/-- The byte count divided by 8 is `num`, which is 0 for 2048 (R58). -/
theorem mpgNumOf_ofNat_div {n : BitVec 12} (hn : mpgNumOk n = true) :
    mpgNumOf (BitVec.ofNat 8 (n.toNat / 8 % 256)) = n := by
  simp only [mpgNumOk, Bool.and_eq_true, beq_iff_eq, decide_eq_true_eq] at hn
  obtain ⟨⟨hmod, hlow⟩, hhigh⟩ := hn
  apply BitVec.eq_of_toNat_eq
  rw [mpgNumOf_toNat, BitVec.toNat_ofNat]
  split <;> omega

/-- Some header of the opcode `o` stands for `i`, and the encoder writes it. -/
def WrittenAsHeader (i : Instr) : Prop :=
  ∃ (o : Opcode) (imm : BitVec 16) (num : Byte),
    encodeWord i = encodeHeader imm.toNat num.toNat o.byte.toNat ∧ o.instrOf imm num = i

/-- The parts of a header given as numbers in range. -/
theorem writtenAsHeader_of_lt {i : Instr} (o : Opcode) {imm num : Nat} (himm : imm < 2 ^ 16) (hnum : num < 2 ^ 8)
    (hw : encodeWord i = encodeHeader imm num o.byte.toNat)
    (hi : o.instrOf (BitVec.ofNat 16 imm) (BitVec.ofNat 8 num) = i) : WrittenAsHeader i := by
  refine ⟨o, BitVec.ofNat 16 imm, BitVec.ofNat 8 num, ?_, hi⟩
  rw [hw, BitVec.toNat_ofNat, BitVec.toNat_ofNat, Nat.mod_eq_of_lt himm, Nat.mod_eq_of_lt hnum]

/-- The five `Unpack` commands differ in opcode and constructor only. -/
theorem writtenAsHeader_unpack (o : Opcode) (make : BitVec 10 → Bool → Bool → Nat → Instr) {a : BitVec 10}
    {z t : Bool} {n : Nat} (hn : numEffOk n = true) (ho : o.instrOf = unpackOf make)
    (hw : encodeWord (make a z t n) = encodeHeader (unpackImmediate a z t) (n % 256) o.byte.toNat) :
    WrittenAsHeader (make a z t n) :=
  writtenAsHeader_of_lt o (unpackImmediate_lt a z t) (Nat.mod_lt _ (by decide)) hw
    (ho ▸ unpackOf_unpackImmediate make a z t hn)

/-- The encoder writes every well-formed command as a header that stands for it. -/
theorem command_writtenAsHeader {i : Instr} (hf : i.format = .vifcode) (hw : i.wf = true) : WrittenAsHeader i := by
  cases i with
  | nop => exact ⟨.nop, 0, 0, rfl, rfl⟩
  | flush => exact ⟨.flush, 0, 0, rfl, rfl⟩
  | mscnt => exact ⟨.mscnt, 0, 0, rfl, rfl⟩
  | strow => exact ⟨.strow, 0, 0, rfl, rfl⟩
  | stcycl cl wl =>
    have hcl := cl.isLt
    have hwl := wl.isLt
    refine writtenAsHeader_of_lt .stcycl (imm := cl.toNat + wl.toNat * 256) (num := 0) (by omega) (by decide) rfl ?_
    rw [Opcode.instrOf, (field_ofNat_eq_iff cl).mpr (by omega), (field_ofNat_eq_iff wl).mpr (by omega)]
  | stmod mode =>
    have hmode := mode.isLt
    refine writtenAsHeader_of_lt .stmod (imm := mode.toNat) (num := 0) (by omega) (by decide) rfl ?_
    rw [Opcode.instrOf, (field_ofNat_eq_iff mode).mpr (by omega)]
  | mpg address num =>
    have haddress := address.isLt
    obtain ⟨hmul, hnum⟩ := Bool.and_eq_true_iff.mp hw
    refine writtenAsHeader_of_lt .mpg (imm := address.toNat / 8) (num := num.toNat / 8 % 256) (by omega)
      (Nat.mod_lt _ (by decide)) rfl ?_
    rw [Opcode.instrOf, mpgAddressOf_ofNat_div hmul, mpgNumOf_ofNat_div hnum]
  | unpackS32 => exact writtenAsHeader_unpack .unpackS32 _ hw rfl rfl
  | unpackV2x16 => exact writtenAsHeader_unpack .unpackV2x16 _ hw rfl rfl
  | unpackV4x32 => exact writtenAsHeader_unpack .unpackV4x32 _ hw rfl rfl
  | unpackV4x16 => exact writtenAsHeader_unpack .unpackV4x16 _ hw rfl rfl
  | unpackV4x8 => exact writtenAsHeader_unpack .unpackV4x8 _ hw rfl rfl
  | tagRefe | tagCnt | tagNext | tagRef | tagRefs | tagCall | tagRet | tagEnd => cases hf

/-! ## Descriptors written by the encoder -/

@[simp] theorem priorityControlOf_code (c : PriorityControl) : priorityControlOf (BitVec.ofNat 2 c.code) = c := by
  cases c <;> rfl

@[simp] theorem tagIdOf_code (id : TagId) : tagIdOf (BitVec.ofNat 3 id.code) = id := by
  cases id <;> rfl

theorem PriorityControl.code_lt (c : PriorityControl) : c.code < 2 ^ 2 := by
  cases c <;> decide

theorem TagId.code_lt (id : TagId) : id.code < 2 ^ 3 := by
  cases id <;> decide

/-- The tag instruction of a record. -/
def Machine.Descriptor.instr (d : Machine.Descriptor) : Instr :=
  match d.id with
  | .refe => .tagRefe d.qwordCount d.padding d.priorityControl d.irq d.address
  | .cnt => .tagCnt d.qwordCount d.padding d.priorityControl d.irq d.address
  | .next => .tagNext d.qwordCount d.padding d.priorityControl d.irq d.address
  | .ref => .tagRef d.qwordCount d.padding d.priorityControl d.irq d.address
  | .refs => .tagRefs d.qwordCount d.padding d.priorityControl d.irq d.address
  | .call => .tagCall d.qwordCount d.padding d.priorityControl d.irq d.address
  | .ret => .tagRet d.qwordCount d.padding d.priorityControl d.irq d.address
  | .end_ => .tagEnd d.qwordCount d.padding d.priorityControl d.irq d.address

/-- The word the encoder writes for a record (R82). -/
def Machine.Descriptor.word (d : Machine.Descriptor) : Nat :=
  encodeDescriptor d.id d.qwordCount d.padding d.priorityControl d.irq d.address

theorem instr_of_tagRecord {i : Instr} {d : Machine.Descriptor} (h : Machine.tagRecord i = some d) : d.instr = i := by
  cases i <;> cases h <;> rfl

theorem encodeWord_of_tagRecord {i : Instr} {d : Machine.Descriptor} (h : Machine.tagRecord i = some d) :
    encodeWord i = d.word := by
  cases i <;> cases h <;> rfl

/-- The record of a descriptor word: its six fields (R48). -/
def descriptorOfWord (w : Dword) : Machine.Descriptor where
  qwordCount := field w 0 16
  padding := field w 16 10
  priorityControl := priorityControlOf (field w 26 2)
  id := tagIdOf (field w 28 3)
  irq := field w 31 1 == 1
  address := field w 32 32

theorem decodeDescriptor_eq_instr (w : Dword) : decodeDescriptor w = (descriptorOfWord w).instr := rfl

/-- The six fields of a record come back from its word (R82). -/
theorem descriptorOfWord_word (d : Machine.Descriptor) : descriptorOfWord (BitVec.ofNat 64 d.word) = d := by
  obtain ⟨q, p, c, id, irq, a⟩ := d
  simp only [Machine.Descriptor.word, encodeDescriptor]
  have hq := q.isLt
  have hp := p.isLt
  have hc := c.code_lt
  have hid := id.code_lt
  have hirq := irq.toNat_lt
  have ha := a.isLt
  generalize hw : q.toNat + p.toNat * 2 ^ 16 + c.code * 2 ^ 26 + id.code * 2 ^ 28 + irq.toNat * 2 ^ 31
    + a.toNat * 2 ^ 32 = w
  have hqwordCount : field (BitVec.ofNat 64 w) 0 16 = q := by rw [field_ofNat_eq_iff]; omega
  have hpadding : field (BitVec.ofNat 64 w) 16 10 = p := by rw [field_ofNat_eq_iff]; omega
  have hpce : field (BitVec.ofNat 64 w) 26 2 = BitVec.ofNat 2 c.code := by
    rw [field_ofNat_eq_iff, BitVec.toNat_ofNat]; omega
  have hkind : field (BitVec.ofNat 64 w) 28 3 = BitVec.ofNat 3 id.code := by
    rw [field_ofNat_eq_iff, BitVec.toNat_ofNat]; omega
  have hirqBit : field (BitVec.ofNat 64 w) 31 1 = BitVec.ofBool irq := by
    rw [field_ofNat_eq_iff, BitVec.toNat_ofBool]; omega
  have haddress : field (BitVec.ofNat 64 w) 32 32 = a := by rw [field_ofNat_eq_iff]; omega
  rw [descriptorOfWord, hqwordCount, hpadding, hpce, hkind, hirqBit, haddress, priorityControlOf_code, tagIdOf_code,
    ofBool_beq_one]

/-! ## Every encoding -/

theorem decode_encode_command {i : Instr} (hf : i.format = .vifcode) (hw : i.wf = true) (rest : List Byte) :
    decode .vifcode (encode i ++ rest) = .ok (i, rest) := by
  obtain ⟨o, imm, num, hword, hi⟩ := command_writtenAsHeader hf hw
  rw [encode, hf]
  refine decode_vifcode_leBytes rest ?_
  rw [hword, decodeCommand_encodeHeader, hi]

theorem decode_encode_descriptor {i : Instr} (hf : i.format = .dmatag) (rest : List Byte) :
    decode .dmatag (encode i ++ rest) = .ok (i, rest) := by
  obtain ⟨d, hd⟩ := Machine.tagRecord_isSome hf
  rw [encode, hf, Format.size, decode_dmatag_leBytes, encodeWord_of_tagRecord hd, decodeDescriptor_eq_instr,
    descriptorOfWord_word, instr_of_tagRecord hd]

/-- Settles O9: a command comes back from its header's fields, a tag from its descriptor's. -/
theorem decodeOfEncodeIsTheInstruction : Obligations.DecodeOfEncodeIsTheInstruction := by
  intro i rest hw
  cases hf : i.format with
  | vifcode => exact decode_encode_command hf hw rest
  | dmatag => exact decode_encode_descriptor hf rest

/-- Settles O13: the decoder is run on the five words of the statement. -/
theorem writtenWordsDecode : Obligations.WrittenWordsDecode :=
  ⟨by decide, by decide, by decide, by decide, by decide⟩

end Sys2Proof

/-! # Proofs of the family spec/40_tag_descriptor.md

A descriptor and its 8 bytes hold the same six fields (R68, R82), and each of the eight kinds of tag delivers
its record (R70, R74 to R81). First the fields of a descriptor word as numbers, then the two directions between
the word and the record, then the step that reads a descriptor. -/

namespace Sys2Proof

/-! ## The codes of the enumerations -/

@[simp] theorem code_priorityControlOf : ∀ c : BitVec 2, (priorityControlOf c).code = c.toNat := by decide

@[simp] theorem code_tagIdOf : ∀ c : BitVec 3, (tagIdOf c).code = c.toNat := by decide

@[simp] theorem toNat_beq_one : ∀ b : BitVec 1, (b == 1).toNat = b.toNat := by decide

/-! ## The fields of a descriptor word (R48) -/

section
variable (w : Dword)

theorem descriptorOfWord_qwordCount : (descriptorOfWord w).qwordCount.toNat = w.toNat % 2 ^ 16 := by
  rw [descriptorOfWord, field_toNat, Nat.pow_zero, Nat.div_one]

theorem descriptorOfWord_padding : (descriptorOfWord w).padding.toNat = w.toNat / 2 ^ 16 % 2 ^ 10 :=
  field_toNat w 16 10

theorem descriptorOfWord_priorityControl :
    (descriptorOfWord w).priorityControl.code = w.toNat / 2 ^ 26 % 2 ^ 2 := by
  rw [descriptorOfWord, code_priorityControlOf, field_toNat]

theorem descriptorOfWord_id : (descriptorOfWord w).id.code = w.toNat / 2 ^ 28 % 2 ^ 3 := by
  rw [descriptorOfWord, code_tagIdOf, field_toNat]

theorem descriptorOfWord_irq : (descriptorOfWord w).irq.toNat = w.toNat / 2 ^ 31 % 2 ^ 1 := by
  rw [descriptorOfWord, toNat_beq_one, field_toNat]

theorem descriptorOfWord_address : (descriptorOfWord w).address.toNat = w.toNat / 2 ^ 32 % 2 ^ 32 :=
  field_toNat w 32 32

/-- The six fields cover every bit of a descriptor word: the other direction of `descriptorOfWord_word`. -/
theorem word_descriptorOfWord : (descriptorOfWord w).word = w.toNat := by
  have hw := w.isLt
  rw [Machine.Descriptor.word, encodeDescriptor, descriptorOfWord_qwordCount, descriptorOfWord_padding,
    descriptorOfWord_priorityControl, descriptorOfWord_id, descriptorOfWord_irq, descriptorOfWord_address]
  omega

end

/-! ## Words and bytes -/

/-- A record is the record of its tag instruction: the other direction of `instr_of_tagRecord`. -/
theorem tagRecord_instr (d : Machine.Descriptor) : Machine.tagRecord d.instr = some d := by
  obtain ⟨q, p, c, id, irq, a⟩ := d
  cases id <;> rfl

theorem tagRecord_decodeDescriptor (w : Dword) :
    Machine.tagRecord (decodeDescriptor w) = some (descriptorOfWord w) := by
  rw [decodeDescriptor_eq_instr, tagRecord_instr]

/-- Re-encoding a decoded descriptor word writes the word's bytes (R82). -/
theorem encode_decodeDescriptor (w : Dword) : encode (decodeDescriptor w) = leBytes 8 w.toNat := by
  rw [encode, (decodeDescriptor_ok w).1, Format.size, encodeWord_of_tagRecord (tagRecord_decodeDescriptor w),
    word_descriptorOfWord]

theorem leNat_lt_of_length_eight {bs : List Byte} (h : bs.length = 8) : leNat bs < 2 ^ 64 := by
  have hlt := leNat_lt bs
  rwa [h] at hlt

/-- Any 8 bytes decode, with none left. -/
theorem decode_dmatag_of_length_eight {bs : List Byte} (h : bs.length = 8) :
    decode .dmatag bs = .ok (decodeDescriptor (BitVec.ofNat 64 (leNat bs)), []) := by
  have hdecode := decode_dmatag_leBytes (leNat bs) []
  rwa [← h, leBytes_leNat, List.append_nil] at hdecode

/-- Settles O10: the word of the 8 bytes comes back from the record, and the bytes from the word. -/
theorem descriptorReencodesToItsBytes : Obligations.DescriptorReencodesToItsBytes := by
  intro bs h
  refine ⟨_, decode_dmatag_of_length_eight h, ?_⟩
  rw [encode_decodeDescriptor, BitVec.toNat_ofNat, Nat.mod_eq_of_lt (leNat_lt_of_length_eight h), ← h, leBytes_leNat]

end Sys2Proof

namespace Sys2Proof.Machine

/-! ## Delivering a descriptor -/

section
variable {s : State} {p l : Nat}

/-- In both phases that decode a descriptor, its delivery gives the state the statements name. -/
theorem decodedDescriptor_eq_withDescriptor (hp : s.pos = some p) (hl : s.lim = some l)
    (hph : s.phase = .busy .desc1 ∨ s.phase = .busy .tdesc) (d : Descriptor) :
    decodedDescriptor d s = .next (s.withDescriptor d p l) := by
  obtain hph | hph := hph
  · rw [decodedDescriptor_desc1 hph hp, State.withDescriptor, if_pos hph]
  · rw [decodedDescriptor_tdesc hph hp hl, State.withDescriptor, if_neg (by simp [hph])]

theorem exec_tag_eq_withDescriptor {i : Instr} {d : Descriptor} (hd : tagRecord i = some d) (hp : s.pos = some p)
    (hl : s.lim = some l) (hph : s.phase = .busy .desc1 ∨ s.phase = .busy .tdesc) :
    exec i s = .next (s.withDescriptor d p l) := by
  rw [exec_of_tagRecord hd, decodedDescriptor_eq_withDescriptor hp hl hph]

/-! ## The step that reads a descriptor (R68) -/

theorem step_at_descriptor_short (h : s.AtDescriptor p l) (hshort : l < p + 8) :
    step s = .next (s.raise (.unexpectedEnd p .descriptor)) := by
  have ⟨_, hp, hl, _⟩ := h
  rw [step_at_descriptor h, fetch_short (f := .dmatag) hp hl hshort, formatLayer]

/-- The record delivered is that of the 64-bit word at the cursor (R49). -/
theorem step_at_descriptor_fits (h : s.AtDescriptor p l) (hfits : p + 8 ≤ l) :
    step s = .next (s.withDescriptor (descriptorOfWord (BitVec.ofNat 64 (s.memRead p 8))) p l) := by
  have ⟨_, hp, hl, hph⟩ := h
  rw [step_at_descriptor h,
    fetch_ok (f := .dmatag) hp hl hfits (decode_dmatag_of_length_eight (s.srcBytes_length p 8))]
  exact exec_tag_eq_withDescriptor (tagRecord_decodeDescriptor _) hp hl hph

end

/-- The descriptor's word, byte by byte (R49). -/
theorem toNat_ofNat_memRead_eight (s : State) (p : Nat) :
    (BitVec.ofNat 64 (s.memRead p 8)).toNat =
      (s.srcByte p).toNat + 256 * (s.srcByte (p + 1)).toNat + 256 ^ 2 * (s.srcByte (p + 2)).toNat
        + 256 ^ 3 * (s.srcByte (p + 3)).toNat + 256 ^ 4 * (s.srcByte (p + 4)).toNat
        + 256 ^ 5 * (s.srcByte (p + 5)).toNat + 256 ^ 6 * (s.srcByte (p + 6)).toNat
        + 256 ^ 7 * (s.srcByte (p + 7)).toNat := by
  rw [BitVec.toNat_ofNat, State.memRead, Nat.mod_eq_of_lt (leNat_lt_of_length_eight (s.srcBytes_length p 8)),
    State.srcBytes_eight]
  simp only [leNat_cons, leNat_nil]
  omega

/-- Settles O19: each kind carries its record, and every record is delivered alike. -/
theorem tagDescriptorsComplete : Obligations.TagDescriptorsComplete := by
  intro s p l q pad c irq a hp hl hph
  have deliver {i : Instr} {d : Descriptor} (hd : tagRecord i = some d) :
      exec i s = .next (s.withDescriptor d p l) := exec_tag_eq_withDescriptor hd hp hl hph
  exact ⟨deliver rfl, deliver rfl, deliver rfl, deliver rfl, deliver rfl, deliver rfl, deliver rfl, deliver rfl⟩

/-- Settles O23: the record is that of the word at the cursor, and each field lies in its own bytes. -/
theorem descriptorFieldsAreThoseOfItsBytes : Obligations.DescriptorFieldsAreThoseOfItsBytes := by
  intro s p l h
  refine ⟨step_at_descriptor_short h, fun hfits => ⟨_, step_at_descriptor_fits h hfits, ?_⟩⟩
  rw [descriptorOfWord_qwordCount, descriptorOfWord_padding, descriptorOfWord_priorityControl, descriptorOfWord_id,
    descriptorOfWord_irq, descriptorOfWord_address, toNat_ofNat_memRead_eight]
  have h0 := (s.srcByte p).isLt
  have h1 := (s.srcByte (p + 1)).isLt
  have h2 := (s.srcByte (p + 2)).isLt
  have h3 := (s.srcByte (p + 3)).isLt
  have h4 := (s.srcByte (p + 4)).isLt
  have h5 := (s.srcByte (p + 5)).isLt
  have h6 := (s.srcByte (p + 6)).isLt
  have h7 := (s.srcByte (p + 7)).isLt
  refine ⟨?_, ?_, ?_, ?_, ?_, ?_⟩ <;> omega

end Sys2Proof.Machine

/-! # Proofs of the family spec/41_vif_commands.md

A command is read from its four header bytes and from the payload after them (R84), delivered as a record or
turned away by one of three checks (R100). First what the two operand forms answer, and with it what each
command delivers or raises; then the header's fields as bytes; then the step that reads a command, which runs
the instruction of those fields. -/

namespace Sys2Proof.Machine

/-! ## The units of a payload (R86) -/

section
variable (s : State)

theorem State.ofNat_memRead_one (a : Nat) : BitVec.ofNat 8 (s.memRead a 1) = s.srcByte a := by
  rw [State.memRead_succ, State.memRead_zero, Nat.mul_zero, Nat.add_zero, BitVec.ofNat_toNat, BitVec.setWidth_eq]

theorem State.ofNat_memRead_two (a : Nat) : BitVec.ofNat 16 (s.memRead a 2) = s.half a := by
  simp only [State.half, State.memRead_succ, State.memRead_zero, Nat.mul_zero, Nat.add_zero]

theorem State.ofNat_memRead_four (a : Nat) : BitVec.ofNat 32 (s.memRead a 4) = s.word a := by
  rw [State.word]
  congr 1
  simp only [State.memRead_succ, State.memRead_zero, Nat.add_assoc, Nat.reduceAdd]
  omega

theorem State.units_eq_bytes (q k : Nat) : s.units 8 q k 1 = (List.range k).map fun i => s.srcByte (q + i) := by
  simp only [State.units, State.ofNat_memRead_one, Nat.mul_one]

theorem State.units_eq_halves (q k : Nat) : s.units 16 q k 2 = (List.range k).map fun i => s.half (q + i * 2) := by
  simp only [State.units, State.ofNat_memRead_two]

theorem State.units_eq_words (q k : Nat) : s.units 32 q k 4 = (List.range k).map fun i => s.word (q + i * 4) := by
  simp only [State.units, State.ofNat_memRead_four]

theorem State.payloadWord_eq_word (q i : Nat) : s.payloadWord q i = s.word (q + 4 * i) :=
  s.ofNat_memRead_four _

end

/-! ## Delivering a command -/

section
variable {s t : State} {p l : Nat}

/-- In both phases that decode a command, its delivery gives the state the statements name. -/
theorem decodedCommand_eq_withCommand (hph : s.phase = .busy .cmd1 ∨ s.phase = .busy .tloop) (c : Command) (q : Nat) :
    decodedCommand c q s = .next (s.withCommand c q) := by
  obtain hph | hph := hph
  · rw [decodedCommand_cmd1 hph, State.withCommand, if_pos hph]
  · rw [decodedCommand_tloop hph, State.withCommand, if_neg (by simp [hph])]

/-- Where a delivery answers at all, the phase is one of the two. -/
theorem eq_withCommand_of_decodedCommand {c : Command} {q : Nat} (h : decodedCommand c q s = .next t) :
    t = s.withCommand c q := by
  have hph : s.phase = .busy .cmd1 ∨ s.phase = .busy .tloop :=
    (decodedCommand_eq_next h).imp And.left And.left
  rw [decodedCommand_eq_withCommand hph] at h
  cases h
  rfl

theorem headerOnly_eq_withCommand (hp : s.pos = some p) (hph : s.phase = .busy .cmd1 ∨ s.phase = .busy .tloop)
    (c : Command) : headerOnly c s = .next (s.withCommand c (p + 4)) := by
  rw [headerOnly, hp, need_some, decodedCommand_eq_withCommand hph]

/-- The meaning of `i` is the operand form with a payload. It holds by definition of each of the seven commands
that have one (R93 to R99). -/
def TakesPayload (i : Instr) : Prop :=
  ∀ s, exec i s = withPayload (payloadBytes i) (fun q => commandRecord s q i) s

theorem exec_payload_fits {i : Instr} (hi : TakesPayload i) (hp : s.pos = some p) (hl : s.lim = some l)
    (hph : s.phase = .busy .cmd1 ∨ s.phase = .busy .tloop) (hfits : p + 4 + payloadBytes i ≤ l) :
    exec i s = .next (s.withCommand (commandRecord s (p + 4) i) (p + 4 + payloadBytes i)) := by
  rw [hi, withPayload, hp, need_some, hl, need_some, if_pos hfits, decodedCommand_eq_withCommand hph]

theorem exec_payload_short {i : Instr} (hi : TakesPayload i) (hp : s.pos = some p) (hl : s.lim = some l)
    (hshort : l < p + 4 + payloadBytes i) : exec i s = .next (s.raise (.unexpectedEnd (p + 4) .command)) := by
  rw [hi, withPayload, hp, need_some, hl, need_some, if_neg (by omega)]

/-- The size half of `commandRecord_ok`, which holds whether or not the instruction is well formed. -/
theorem commandRecord_size (s : State) (q : Nat) {i : Instr} (hf : i.format = .vifcode) :
    (commandRecord s q i).size = 4 + payloadBytes i := by
  cases i with
  | nop | stcycl | stmod | flush | mscnt | strow | mpg => rfl
  | unpackS32 => simp only [commandRecord, Command.size, State.units_length, payloadBytes]
  | unpackV2x16 | unpackV4x32 | unpackV4x16 | unpackV4x8 =>
    simp only [commandRecord, Command.size, State.units_length, payloadBytes]
    omega
  | tagRefe | tagCnt | tagNext | tagRef | tagRefs | tagCall | tagRet | tagEnd => cases hf

/-- Settles O22: a command that answers delivered its record or raised, and the record has the item's size. -/
theorem commandsChangeOnlyCursorAndRecord : Obligations.CommandsChangeOnlyCursorAndRecord := by
  intro i s t hf h
  obtain ⟨p, hp, h | h⟩ := exec_command_eq_next hf h
  · refine ⟨p, hp, .inl ⟨commandRecord s (p + 4) i, ?_⟩⟩
    rw [commandRecord_size s (p + 4) hf, ← Nat.add_assoc]
    exact eq_withCommand_of_decodedCommand h
  · exact ⟨p, hp, .inr h⟩

/-- Settles O16: each of the five is the operand form without payload. -/
theorem headerOnlyCommandsComplete : Obligations.HeaderOnlyCommandsComplete := by
  intro s p cl wl mode hp hph
  have deliver (c : Command) : headerOnly c s = .next (s.withCommand c (p + 4)) := headerOnly_eq_withCommand hp hph c
  exact ⟨deliver .nop, deliver (.stcycl cl wl), deliver (.stmod mode), deliver .flush, deliver .mscnt⟩

/-- Settles O17: both are the operand form with a payload, whose units are words and bytes. -/
theorem strowAndMpgComplete : Obligations.StrowAndMpgComplete := by
  intro s p l address num hp hl hph
  have deliver (i : Instr) (hi : TakesPayload i) := exec_payload_fits hi hp hl hph
  have hstrow := deliver .strow fun _ => rfl
  have hmpg := deliver (.mpg address num) fun _ => rfl
  simp only [commandRecord, State.payloadWord_eq_word] at hstrow
  simp only [commandRecord, State.units_eq_bytes] at hmpg
  exact ⟨hstrow, hmpg⟩

/-- Settles O18: the five are the operand form with a payload, of words, halves or bytes. -/
theorem unpackCommandsComplete : Obligations.UnpackCommandsComplete := by
  intro s p l a z t n hp hl hph
  have deliver (i : Instr) (hi : TakesPayload i) := exec_payload_fits hi hp hl hph
  rw [← s.units_eq_words, ← s.units_eq_halves, ← s.units_eq_bytes, ← s.units_eq_words, ← s.units_eq_halves]
  exact ⟨fun hfits => ⟨deliver (.unpackS32 a z t n) (fun _ => rfl) hfits,
      deliver (.unpackV2x16 a z t n) (fun _ => rfl) hfits, deliver (.unpackV4x8 a z t n) (fun _ => rfl) hfits⟩,
    deliver (.unpackV4x32 a z t n) fun _ => rfl, deliver (.unpackV4x16 a z t n) fun _ => rfl⟩

/-- Settles O20: the seven are the operand form with a payload, which checks it before any unit is read. -/
theorem shortPayloadTraps : Obligations.ShortPayloadTraps := by
  intro s p l address num a z t n hp hl
  have trap (i : Instr) (hi : TakesPayload i) := exec_payload_short hi hp hl
  exact ⟨trap .strow fun _ => rfl, trap (.mpg address num) fun _ => rfl,
    fun hshort => ⟨trap (.unpackS32 a z t n) (fun _ => rfl) hshort, trap (.unpackV2x16 a z t n) (fun _ => rfl) hshort,
      trap (.unpackV4x8 a z t n) (fun _ => rfl) hshort⟩,
    trap (.unpackV4x32 a z t n) fun _ => rfl, trap (.unpackV4x16 a z t n) fun _ => rfl⟩

end

end Sys2Proof.Machine

namespace Sys2Proof

/-! ## Payload lengths of the decoded instructions (R61) -/

theorem toNat_ne_zero_iff (num : Byte) : num.toNat ≠ 0 ↔ num ≠ 0 :=
  (BitVec.toNat_ne (y := 0)).symm

/-- Every known opcode's instruction has the payload length of the table. -/
theorem payloadLength_byte (o : Opcode) (imm : BitVec 16) (num : Byte) :
    Machine.payloadLength o.byte.toNat num.toNat = some (Machine.payloadBytes (o.instrOf imm num)) := by
  cases o with
  | nop | stcycl | stmod | flush | mscnt | strow => rfl
  | mpg => exact congrArg some (mpgNumOf_toNat num).symm
  | unpackS32 | unpackV2x16 | unpackV4x32 | unpackV4x16 | unpackV4x8 => rfl

/-- The table has no length for a byte that is no opcode. -/
theorem payloadLength_of_unknown {cmd : Byte} (ho : opcodeOf cmd = none) (num : Nat) :
    Machine.payloadLength cmd.toNat num = none := by
  simp only [opcodeOf_eq_none_iff, opcodeTable, List.map_cons, List.map_nil, List.mem_cons, List.not_mem_nil, or_false,
    not_or, ← BitVec.toNat_inj, BitVec.reduceToNat] at ho
  simp [Machine.payloadLength, ho]

theorem instrOf_format (o : Opcode) (imm : BitVec 16) (num : Byte) : (o.instrOf imm num).format = .vifcode := by
  cases o <;> rfl

end Sys2Proof

namespace Sys2Proof.Machine

/-! ## The header, byte by byte (R54) -/

section
variable (s : State) (p : Nat)

theorem State.half_toNat : (s.half p).toNat = (s.srcByte p).toNat + 256 * (s.srcByte (p + 1)).toNat := by
  rw [State.half, BitVec.toNat_ofNat]
  omega

theorem field_word_immediate : field (s.word p) 0 16 = s.half p := by
  rw [State.word, field_ofNat_eq_iff, State.half_toNat]
  omega

theorem field_word_num : field (s.word p) 16 8 = s.srcByte (p + 2) := by
  rw [State.word, field_ofNat_eq_iff]
  omega

theorem field_word_opcode : field (s.word p) 24 8 = s.srcByte (p + 3) := by
  rw [State.word, field_ofNat_eq_iff]
  omega

theorem field_half_low : field (s.half p) 0 8 = s.srcByte p := by
  rw [State.half, field_ofNat_eq_iff]
  omega

theorem field_half_high : field (s.half p) 8 8 = s.srcByte (p + 1) := by
  rw [State.half, field_ofNat_eq_iff]
  omega

theorem field_half_mode : field (s.half p) 0 2 = BitVec.ofNat 2 (s.srcByte p).toNat := by
  rw [State.half, field_ofNat_eq_iff, BitVec.toNat_ofNat]
  omega

/-- A header of 4 bytes is decoded as one little-endian word (R33). -/
theorem decode_vifcode_srcBytes :
    decode .vifcode (s.srcBytes p 4) = (decodeCommand (s.word p)).map fun i => (i, []) := by
  have hword : BitVec.ofNat 32 (leNat (s.srcBytes p 4)) = s.word p := s.ofNat_memRead_four p
  rw [State.srcBytes_four] at hword ⊢
  simp only [decode, hword]
  cases decodeCommand (s.word p) <;> rfl

end

/-- `Unpack`'s operands, from the bytes of `immediate` and `num` (R55, R59). -/
theorem unpackOf_half {s : State} {p : Nat} (make : BitVec 10 → Bool → Bool → Nat → Instr) {address : BitVec 10}
    {z t : Bool} {n : Nat} (hn : n = if s.srcByte (p + 2) ≠ 0 then (s.srcByte (p + 2)).toNat else 256)
    (haddress : address.toNat = (s.srcByte p).toNat + 256 * ((s.srcByte (p + 1)).toNat % 4))
    (hz : z.toNat = (s.srcByte (p + 1)).toNat / 64 % 2) (ht : t.toNat = (s.srcByte (p + 1)).toNat / 128) :
    unpackOf make (s.half p) (s.srcByte (p + 2)) = make address z t n := by
  have haddress' : field (s.half p) 0 10 = address := by
    rw [← BitVec.toNat_inj, field_toNat, State.half_toNat]; omega
  have hinj : Function.Injective Bool.toNat := Function.LeftInverse.injective Bool.ofNat_toNat
  have hz' : (field (s.half p) 14 1 == 1) = z := by
    apply hinj; rw [toNat_beq_one, field_toNat, State.half_toNat]; omega
  have ht' : (field (s.half p) 15 1 == 1) = t := by
    apply hinj; rw [toNat_beq_one, field_toNat, State.half_toNat]; omega
  have hn' : numEffOf (s.srcByte (p + 2)) = n := by
    simp only [numEffOf, toNat_ne_zero_iff, hn]
  rw [unpackOf, haddress', hz', ht', hn']

/-! ## The step that reads a command (R84, R100) -/

section
variable {s : State} {p l : Nat}

theorem State.AtCommand.phase_eq (h : s.AtCommand p l) : s.phase = .busy .cmd1 ∨ s.phase = .busy .tloop := by
  obtain ⟨-, -, -, hph⟩ := h
  exact hph.imp_right And.left

theorem step_at_command_short (h : s.AtCommand p l) (hshort : l < p + 4) :
    step s = .next (s.raise (.unexpectedEnd p .command)) := by
  have ⟨_, hp, hl, _⟩ := h
  rw [step_at_command h, fetch_short (f := .vifcode) hp hl hshort, formatLayer]

/-- A known opcode's instruction is run, with the header's first two bytes as `immediate` and its third as `num`. -/
theorem step_at_command_known (h : s.AtCommand p l) (hheader : p + 4 ≤ l) (o : Opcode)
    (ho : s.srcByte (p + 3) = o.byte) : step s = exec (o.instrOf (s.half p) (s.srcByte (p + 2))) s := by
  have ⟨_, hp, hl, _⟩ := h
  have hdecode : decodeCommand (s.word p) = .ok (o.instrOf (s.half p) (s.srcByte (p + 2))) := by
    rw [← field_word_immediate, ← field_word_num]
    exact decodeCommand_of_known (by rw [field_word_opcode, ho, opcodeOf_byte])
  rw [step_at_command h]
  exact fetch_ok (f := .vifcode) hp hl hheader ((decode_vifcode_srcBytes s p).trans (by rw [hdecode]; rfl)) exec

theorem step_at_command_unknown (h : s.AtCommand p l) (hheader : p + 4 ≤ l)
    (ho : opcodeOf (s.srcByte (p + 3)) = none) :
    step s = .next (s.raise (.unknownOpcode (s.srcByte (p + 3)) p .command)) := by
  have ⟨_, hp, hl, _⟩ := h
  have hdecode : decodeCommand (s.word p) = .error (.unknownOpcode (s.srcByte (p + 3))) := by
    rw [← field_word_opcode] at ho ⊢
    exact decodeCommand_of_unknown ho
  rw [step_at_command h]
  exact fetch_rejected (f := .vifcode) hp hl hheader ((decode_vifcode_srcBytes s p).trans (by rw [hdecode]; rfl)) exec

end

/-! ## The commands from their bytes

Each step runs the instruction of its header, and what that delivers or raises is said above. -/

/-- Settles O26: the three opcodes' instructions have no operand. -/
theorem nopFlushMscntRules : Obligations.NopFlushMscntRules := by
  intro s p l h
  have ⟨_, hp, _, _⟩ := h
  obtain ⟨hnop, -, -, hflush, hmscnt⟩ := headerOnlyCommandsComplete s p 0 0 0 hp h.phase_eq
  refine ⟨step_at_command_short h, fun hheader => ⟨fun hop => ?_, fun hop => ?_, fun hop => ?_⟩⟩
  · exact (step_at_command_known h hheader .nop hop).trans hnop
  · exact (step_at_command_known h hheader .flush hop).trans hflush
  · exact (step_at_command_known h hheader .mscnt hop).trans hmscnt

/-- Settles O27: `cl` and `wl` are the two bytes of `immediate`. -/
theorem stcyclRule : Obligations.StcyclRule := by
  intro s p l h
  have ⟨_, hp, _, _⟩ := h
  obtain ⟨-, hstcycl, -⟩ :=
    headerOnlyCommandsComplete s p (s.srcByte p) (s.srcByte (p + 1)) 0 hp h.phase_eq
  refine ⟨step_at_command_short h, fun hheader hop => ?_⟩
  rw [step_at_command_known h hheader .stcycl hop, Opcode.instrOf, field_half_low, field_half_high, hstcycl]

/-- Settles O28: `mode` is the two low bits of `immediate`. -/
theorem stmodRule : Obligations.StmodRule := by
  intro s p l h
  have ⟨_, hp, _, _⟩ := h
  obtain ⟨-, -, hstmod, -⟩ :=
    headerOnlyCommandsComplete s p 0 0 (BitVec.ofNat 2 (s.srcByte p).toNat) hp h.phase_eq
  refine ⟨step_at_command_short h, fun hheader hop => ?_⟩
  rw [step_at_command_known h hheader .stmod hop, Opcode.instrOf, field_half_mode, hstmod]

/-- Settles O29: the payload of STROW fits or does not, whatever `num` says. -/
theorem strowRule : Obligations.StrowRule := by
  intro s p l h
  have ⟨_, hp, hl, _⟩ := h
  refine ⟨step_at_command_short h, fun hheader hop => ?_⟩
  rw [step_at_command_known h hheader .strow hop]
  obtain ⟨hshort, -⟩ := shortPayloadTraps s p l 0 0 0 false false 0 hp hl
  obtain ⟨hfits, -⟩ := strowAndMpgComplete s p l 0 0 hp hl h.phase_eq
  exact ⟨hshort, hfits⟩

/-- Settles O30: the operands are `immediate*8` and the payload length, both exact. -/
theorem mpgRule : Obligations.MpgRule := by
  intro s p l h
  have ⟨_, hp, hl, _⟩ := h
  refine ⟨step_at_command_short h, fun hheader hop k hk => ?_⟩
  have hnum : (mpgNumOf (s.srcByte (p + 2))).toNat = k := by
    simp only [mpgNumOf_toNat, toNat_ne_zero_iff, hk]
  have haddress : (mpgAddressOf (s.half p)).toNat =
      ((s.srcByte p).toNat + 256 * (s.srcByte (p + 1)).toNat) * 8 := by
    rw [mpgAddressOf_toNat, State.half_toNat]
  rw [step_at_command_known h hheader .mpg hop, Opcode.instrOf]
  obtain ⟨-, hshort, -⟩ := shortPayloadTraps s p l (mpgAddressOf (s.half p)) (mpgNumOf (s.srcByte (p + 2)))
    0 false false 0 hp hl
  obtain ⟨-, hfits⟩ := strowAndMpgComplete s p l (mpgAddressOf (s.half p)) (mpgNumOf (s.srcByte (p + 2)))
    hp hl h.phase_eq
  rw [hnum] at hshort hfits
  exact ⟨hshort, fun hfit => ⟨_, _, haddress, hnum, hfits hfit⟩⟩

/-- Settles O31: the five opcodes share their operands and differ in their units. -/
theorem unpackRules : Obligations.UnpackRules := by
  intro s p l h
  have ⟨_, hp, hl, _⟩ := h
  refine ⟨step_at_command_short h, fun hheader n address z t hn haddress hz ht => ?_⟩
  have run (o : Opcode) (make : BitVec 10 → Bool → Bool → Nat → Instr) (hop : s.srcByte (p + 3) = o.byte)
      (hmake : o.instrOf (s.half p) (s.srcByte (p + 2)) = unpackOf make (s.half p) (s.srcByte (p + 2))) :
      step s = exec (make address z t n) s := by
    rw [step_at_command_known h hheader o hop, hmake, unpackOf_half make hn haddress hz ht]
  obtain ⟨-, -, hshort, hshortV4x32, hshortV4x16⟩ := shortPayloadTraps s p l 0 0 address z t n hp hl
  obtain ⟨hfits, hfitsV4x32, hfitsV4x16⟩ := unpackCommandsComplete s p l address z t n hp hl h.phase_eq
  refine ⟨fun hmem hlt => ?_, fun hop hlt => ?_, fun hop hlt => ?_, fun hop hle => ?_, fun hop hle => ?_,
    fun hop hle => ?_, fun hop hle => ?_, fun hop hle => ?_⟩
  · obtain ⟨hS32, hV2x16, hV4x8⟩ := hshort hlt
    simp only [List.mem_cons, List.not_mem_nil, or_false] at hmem
    obtain hop | hop | hop := hmem
    · exact (run .unpackS32 .unpackS32 hop rfl).trans hS32
    · exact (run .unpackV2x16 .unpackV2x16 hop rfl).trans hV2x16
    · exact (run .unpackV4x8 .unpackV4x8 hop rfl).trans hV4x8
  · exact (run .unpackV4x32 .unpackV4x32 hop rfl).trans (hshortV4x32 hlt)
  · exact (run .unpackV4x16 .unpackV4x16 hop rfl).trans (hshortV4x16 hlt)
  · obtain ⟨hS32, -, -⟩ := hfits hle
    exact (run .unpackS32 .unpackS32 hop rfl).trans hS32
  · obtain ⟨-, hV2x16, -⟩ := hfits hle
    exact (run .unpackV2x16 .unpackV2x16 hop rfl).trans hV2x16
  · exact (run .unpackV4x32 .unpackV4x32 hop rfl).trans (hfitsV4x32 hle)
  · exact (run .unpackV4x16 .unpackV4x16 hop rfl).trans (hfitsV4x16 hle)
  · obtain ⟨-, -, hV4x8⟩ := hfits hle
    exact (run .unpackV4x8 .unpackV4x8 hop rfl).trans hV4x8

/-- Settles O32: the header's fit, then the opcode, then the payload's fit decide what the step answers. -/
theorem commandChecksInOrder : Obligations.CommandChecksInOrder := by
  intro s p l h
  have ⟨_, hp, hl, _⟩ := h
  refine ⟨step_at_command_short h, fun hheader => ?_⟩
  cases ho : opcodeOf (s.srcByte (p + 3)) with
  | none =>
    rw [payloadLength_of_unknown ho]
    exact ⟨fun _ => step_at_command_unknown h hheader ho, fun k hk => absurd hk.symm (Option.some_ne_none k)⟩
  | some o =>
    have hop := opcodeOf_eq_some ho
    rw [step_at_command_known h hheader o hop, hop, payloadLength_byte o (s.half p) (s.srcByte (p + 2))]
    refine ⟨fun hk => absurd hk (Option.some_ne_none _), fun k hk => ?_⟩
    cases hk
    have hf := instrOf_format o (s.half p) (s.srcByte (p + 2))
    rw [exec_command hf hp hl hheader]
    refine ⟨fun hshort => if_neg (by omega), fun hfits => ⟨_, commandRecord_size s (p + 4) hf, ?_⟩⟩
    rw [if_pos hfits, decodedCommand_eq_withCommand h.phase_eq]

end Sys2Proof.Machine

/-! # Proofs of the family spec/42_tag.md

The decode of a tag depends on its descriptor's `qword_count` alone (R106, R108), and the tag of a response
fills its region exactly (R101, R102). First the delivery of two descriptors of one `qword_count`; then the
descriptor register replaced under a command and at the region's end; then where the invariant puts that end. -/

namespace Sys2Proof.Machine

/-! ## Two descriptors of one `qword_count` -/

theorem exec_decodeDescriptor (w : Dword) (s : State) :
    exec (decodeDescriptor w) s = decodedDescriptor (descriptorOfWord w) s :=
  exec_of_tagRecord (tagRecord_decodeDescriptor w) s

theorem descriptorOfWord_qwordCount_congr {w w' : Dword} (h : w.toNat % 2 ^ 16 = w'.toNat % 2 ^ 16) :
    (descriptorOfWord w').qwordCount = (descriptorOfWord w).qwordCount := by
  rw [← BitVec.toNat_inj, descriptorOfWord_qwordCount, descriptorOfWord_qwordCount, h]

/-- A `DESC` request puts the record in the response and a tag puts it in `DESC`; the region's end is the
one other field the record reaches, and that by `qword_count`. -/
theorem decodedDescriptor_congr {d d' : Descriptor} (hq : d'.qwordCount = d.qwordCount) {s t t' : State}
    (h : decodedDescriptor d s = .next t) (h' : decodedDescriptor d' s = .next t') :
    t' = { t with desc := t'.desc, result := t'.result } ∧ t'.result.map Prod.snd = t.result.map Prod.snd := by
  obtain ⟨p, hp, ⟨hph, rfl⟩ | ⟨hph, l, hl, rfl⟩⟩ := decodedDescriptor_eq_next h
  · rw [decodedDescriptor_desc1 hph hp] at h'
    cases h'
    exact ⟨rfl, rfl⟩
  · rw [decodedDescriptor_tdesc hph hp hl, hq] at h'
    cases h'
    exact ⟨rfl, rfl⟩

section
variable {s t : State} {p l : Nat}

/-! ## Reads of the source

What is read of the source depends on `State.served` alone, so two states that differ elsewhere read the same. -/

theorem State.srcBytes_eq_of_served_eq (h : t.served = s.served) (a k : Nat) : t.srcBytes a k = s.srcBytes a k := by
  simp only [State.srcBytes, State.srcByte_eq_of_served_eq h]

theorem commandRecord_eq_of_served_eq (h : t.served = s.served) (q : Nat) (i : Instr) :
    commandRecord t q i = commandRecord s q i := by
  have hread (a k : Nat) : t.memRead a k = s.memRead a k := by
    rw [State.memRead, State.memRead, State.srcBytes_eq_of_served_eq h]
  cases i with
  | strow => simp only [commandRecord, State.payloadWord, hread]
  | mpg | unpackS32 | unpackV2x16 | unpackV4x32 | unpackV4x16 | unpackV4x8 =>
    simp only [commandRecord, State.units, hread]
  | _ => rfl

/-! ## The descriptor register replaced

A command that answers a next state answers the same one, but for the register, with another descriptor in
`DESC`. -/

/-- The state with another descriptor in `DESC`. -/
def State.withDesc (s : State) (d : Descriptor) : State := { s with desc := some d }

@[simp] theorem State.withDesc_served (s : State) (d : Descriptor) : (s.withDesc d).served = s.served := rfl

theorem decodedCommand_withDesc (d : Descriptor) {c : Command} {q : Nat} (h : decodedCommand c q s = .next t) :
    decodedCommand c q (s.withDesc d) = .next (t.withDesc d) := by
  obtain ⟨hph, rfl⟩ | ⟨hph, rfl⟩ := decodedCommand_eq_next h
  · exact decodedCommand_cmd1 (s := s.withDesc d) hph c q
  · exact decodedCommand_tloop (s := s.withDesc d) hph c q

theorem exec_command_withDesc (d : Descriptor) {i : Instr} (hf : i.format = .vifcode) (hp : s.pos = some p)
    (hl : s.lim = some l) (hheader : p + 4 ≤ l) (h : exec i s = .next t) :
    exec i (s.withDesc d) = .next (t.withDesc d) := by
  rw [exec_command hf hp hl hheader] at h
  rw [exec_command (s := s.withDesc d) hf hp hl hheader, commandRecord_eq_of_served_eq (s.withDesc_served d)]
  split at h
  · rw [if_pos (by assumption)]
    exact decodedCommand_withDesc d h
  · rw [if_neg (by assumption)]
    cases h
    rfl

theorem fetch_command_withDesc (d : Descriptor) (h : fetch .vifcode exec s = .next t) :
    fetch .vifcode exec (s.withDesc d) = .next (t.withDesc d) := by
  have hbytes (a k : Nat) := State.srcBytes_eq_of_served_eq (s.withDesc_served d) a k
  obtain ⟨p, l, hp, hl, ⟨hshort, rfl⟩ | ⟨hfits, e, hd, rfl⟩ | ⟨hfits, i, rest, hd, hf, -, hrun⟩⟩ := fetch_eq_next h
  · exact fetch_short (s := s.withDesc d) hp hl hshort exec
  · exact fetch_rejected (s := s.withDesc d) hp hl hfits ((congrArg _ (hbytes _ _)).trans hd) exec
  · rw [fetch_ok (s := s.withDesc d) hp hl hfits ((congrArg _ (hbytes _ _)).trans hd) exec]
    exact exec_command_withDesc d hf hp hl hfits hrun

/-! ## The step of a tag region -/

theorem step_in_region (hr : s.resetLine = false) (hph : s.phase = .busy .tloop) {e : Nat} (hp : s.pos = some p)
    (he : s.tagEnd = some e) (hlt : p < e) : step s = fetch .vifcode exec s := by
  rw [step_tloop hr hph, stepRegion_eq hp he, if_pos hlt]

theorem step_at_region_end (hr : s.resetLine = false) (hph : s.phase = .busy .tloop) {e : Nat} (hp : s.pos = some p)
    (he : s.tagEnd = some e) (hle : e ≤ p) : step s = stepRegionEnd s := by
  rw [step_tloop hr hph, stepRegion_eq hp he, if_neg (Nat.not_lt.mpr hle)]

/-- The end of the region of a `TAG` request, with the record in the response and no use of its kind (R108). -/
theorem stepRegionEnd_of_tag_request {d : Descriptor} {x : Nat} {rest : List Nat} (hp : s.pos = some p)
    (hop : s.op = some 2) (hd : s.desc = some d) (hsave : s.limSave = x :: rest) :
    stepRegionEnd s = .next { s with
      lim := some x, limSave := rest, result := some (.tag ⟨d, s.cmds⟩, p), phase := .done } := by
  simp [stepRegionEnd, hp, hop, hd, popLimit_cons hsave, State.finish]

theorem stepRegionEnd_withDesc (d : Descriptor) (hp : s.pos = some p) (hop : s.op = some 2)
    (h : stepRegionEnd s = .next t) :
    stepRegionEnd (s.withDesc d) = .next { t.withDesc d with result := some (.tag ⟨d, s.cmds⟩, p) } ∧
      t.result.map Prod.snd = some p := by
  obtain ⟨_, _, d₀, x, rest, -, -, hd, hsave, -⟩ := stepRegionEnd_eq_next h
  rw [stepRegionEnd_of_tag_request hp hop hd hsave] at h
  cases h
  exact ⟨stepRegionEnd_of_tag_request (s := s.withDesc d) hp hop rfl hsave, rfl⟩

end

/-- Settles O25: a descriptor's delivery uses `qword_count` alone, a command does not read `DESC`, and the end
of the region of a `TAG` request moves it into the response. -/
theorem tagDecodeDependsOnQwordCountOnly : Obligations.TagDecodeDependsOnQwordCountOnly := by
  constructor
  · intro w w' s t t' hq h h'
    rw [exec_decodeDescriptor] at h h'
    exact decodedDescriptor_congr (descriptorOfWord_qwordCount_congr hq) h h'
  · intro s t p e d hr hph hp he h
    constructor
    · intro hlt
      rw [step_in_region hr hph hp he hlt] at h
      rw [step_in_region (s := { s with desc := some d }) hr hph hp he hlt]
      exact fetch_command_withDesc d h
    · intro hle hop
      rw [step_at_region_end hr hph hp he hle] at h
      rw [step_at_region_end (s := { s with desc := some d }) hr hph hp he hle]
      exact stepRegionEnd_withDesc d hp hop h

/-! ## The tag of a response -/

section
variable {s t : State} {p l : Nat}

/-- A command of a tag does not end the request: it stays in the region or fails. -/
theorem fetch_command_not_done (hph : s.phase = .busy .tloop) (h : fetch .vifcode exec s = .next t) :
    t.phase ≠ .done := by
  obtain ⟨p, l, -, -, ⟨-, rfl⟩ | ⟨-, e, -, rfl⟩ | ⟨-, i, rest, -, hf, -, hrun⟩⟩ := fetch_eq_next h
  · simp
  · simp
  · obtain ⟨q, -, hdone | rfl⟩ := exec_command_eq_next hf hrun
    · obtain ⟨hcmd, -⟩ | ⟨-, rfl⟩ := decodedCommand_eq_next hdone
      · simp [hph] at hcmd
      · simp [hph]
    · simp

/-- The region's end bounds every read in it (R103), whatever bound encloses the region (R104). -/
theorem State.InRegion.lim_le_tagEnd {r : Request} {ts e : Nat} {d : Descriptor} (h : s.InRegion r p l ts e d) :
    l ≤ e := by
  obtain ⟨-, -, -, hlim⟩ | ⟨-, w, -, -, hlim, -⟩ := h.limits
  · exact hlim ▸ Nat.min_le_right ..
  · exact hlim ▸ Nat.min_le_right ..

/-- Once the cursor is at the region's end, the commands have filled the region (R102). -/
theorem State.InRegion.tag_wf {r : Request} {ts e : Nat} {d : Descriptor} (h : s.InRegion r p l ts e d)
    (hend : p = e) : Tag.wf ⟨d, s.cmds⟩ := by
  have hpos := h.pos
  have hregion := h.region
  have hsize : commandsSize s.cmds = 16 * d.qwordCount.toNat := by omega
  exact ⟨h.cmds, hsize⟩

end

/-- Settles O36: the request ends at the region's end only, and the limit keeps the cursor from passing it. -/
theorem tagResponseFillsItsRegion : Obligations.TagResponseFillsItsRegion := by
  intro s t hinv hr hph h hdone
  obtain ⟨r, p, l, hb⟩ := hinv.busy hph
  obtain ⟨ts, e, d, hreg⟩ := hb.sub
  by_cases hlt : p < e
  · rw [step_in_region hr hph hb.pos hreg.tagEnd hlt] at h
    exact absurd hdone (fetch_command_not_done hph h)
  · have hend : p = e := Nat.le_antisymm (hb.within.trans hreg.lim_le_tagEnd) (Nat.le_of_not_lt hlt)
    rw [step_at_region_end hr hph hb.pos hreg.tagEnd hend.ge] at h
    obtain ⟨q, op, d', x, rest, hq, -, hd, -, ⟨-, rfl⟩ | ⟨-, rfl⟩⟩ := stepRegionEnd_eq_next h
    · obtain rfl : p = q := Option.some.inj (hb.pos.symm.trans hq)
      obtain rfl : d = d' := Option.some.inj (hreg.desc.symm.trans hd)
      obtain ⟨hcmds, hsize⟩ := hreg.tag_wf hend
      exact ⟨⟨d, s.cmds⟩, p, ts, rfl, hreg.tagStart, hend.trans hreg.region, hsize, hcmds⟩
    · cases hdone

end Sys2Proof.Machine

/-! # Proofs of the family spec/43_packet.md

The kind of a tag says what follows it in a packet (R114), and a packet ends at the end of its window with
whole tags, none after a terminating one (R117). -/

namespace Sys2Proof.Machine

/-! ## The chain class -/

theorem chainClass_eq_terminate_iff (id : TagId) : chainClass id = .terminate ↔ id ∈ [TagId.refe, .ret, .end_] := by
  cases id <;> decide

theorem chainClass_eq_continue_iff (id : TagId) :
    chainClass id = .continue_ ↔ id ∈ [TagId.cnt, .next, .ref, .refs, .call] := by
  cases id <;> decide

/-- Settles O35: in a packet the end of a tag's region leaves the cursor where it is and enters the phase of
the tag's class. -/
theorem tagKindDecidesWhatFollows : Obligations.TagKindDecidesWhatFollows := by
  refine ⟨chainClass_eq_terminate_iff, chainClass_eq_continue_iff, ?_⟩
  intro s t p e op d hr hph hp he hle hop hpacket hd h
  rw [step_at_region_end hr hph hp he hle] at h
  obtain ⟨_, op', d', _, _, -, hop', hd', -, ⟨htag, -⟩ | ⟨-, rfl⟩⟩ := stepRegionEnd_eq_next h
  · obtain rfl : op = op' := Option.some.inj (hop.symm.trans hop')
    exact absurd htag hpacket
  · obtain rfl : d = d' := Option.some.inj (hd.symm.trans hd')
    have hphase {c : ChainClass} (hc : chainClass d.id = c) :
        Phase.busy (afterTag (chainClass d.id)) = .busy (afterTag c) := by rw [hc]
    exact ⟨hp, hphase, hphase⟩

/-! ## The packet of a response -/

/-- Settles O40: the window check ends the request only once the cursor is at or past `WIN_END`, and the
invariant keeps it from passing. -/
theorem packetResponseEndsAtTheWindowEnd : Obligations.PacketResponseEndsAtTheWindowEnd := by
  intro s t hinv hr hph h hdone
  obtain ⟨r, p, l, hb⟩ := hinv.busy hph
  obtain ⟨w, hwin, hchain, -, hle⟩ := hb.sub
  rw [step_ploop hr hph] at h
  obtain ⟨p', w', hp, hw, ⟨-, rfl⟩ | ⟨hend, _, _, -, rfl⟩⟩ := stepWindow_eq_next h
  · cases hdone
  · obtain rfl : p = p' := Option.some.inj (hb.pos.symm.trans hp)
    obtain rfl : w = w' := Option.some.inj (hwin.winEnd.symm.trans hw)
    obtain rfl : p = w := Nat.le_antisymm hle hend
    exact ⟨s.tags, p, rfl, hw, hwin.tags, hchain⟩

end Sys2Proof.Machine

/-! # Proofs of the family spec/44_sequencer.md

The request sequencer (R121 to R133): every step keeps the invariant, each phase runs the function of its
rule, and the whole machine gives the response of the four functions within the bound of R132. First what a
fetch can do, in terms of the item's record and error; then the invariant; then the phases one by one, for
acceptance, decoding and packets; then the runs they compose to. -/

namespace Sys2Proof.Machine

/-! ## What a fetch can do -/

theorem Command.four_le_size (c : Command) : 4 ≤ c.size := by
  cases c <;> simp only [Command.size] <;> omega

section
variable {s t : State} {p l : Nat}

/-- A command's fetch raises at its header or at its payload, both within the limit but for a header that is
cut off, or delivers a whole record that ends within the limit (R84, R100). -/
theorem fetch_command_eq_next (hp : s.pos = some p) (hl : s.lim = some l) (h : fetch .vifcode exec s = .next t) :
    (∃ e : DecodeError, e.layer = .command ∧ (e.offset = p ∨ e.offset = p + 4 ∧ p + 4 ≤ l) ∧ t = s.raise e) ∨
    ∃ c : Command, c.wf ∧ p + c.size ≤ l ∧ decodedCommand c (p + c.size) s = .next t := by
  obtain ⟨p', l', hp', hl', hcases⟩ := fetch_eq_next h
  obtain rfl : p = p' := Option.some.inj (hp.symm.trans hp')
  obtain rfl : l = l' := Option.some.inj (hl.symm.trans hl')
  obtain ⟨-, rfl⟩ | ⟨-, e, hd, rfl⟩ | ⟨hheader, i, rest, -, hf, hwf, hrun⟩ := hcases
  · exact .inl ⟨_, rfl, .inl rfl, rfl⟩
  · obtain ⟨cmd, rfl⟩ := decode_vifcode_error hd
    exact .inl ⟨_, rfl, .inl rfl, rfl⟩
  · rw [exec_command hf hp hl hheader] at hrun
    split at hrun
    · obtain ⟨hc, hsize⟩ := commandRecord_ok s (p + 4) hf hwf
      refine .inr ⟨commandRecord s (p + 4) i, hc, ?_⟩
      rw [hsize, ← Nat.add_assoc]
      exact ⟨by assumption, hrun⟩
    · cases hrun
      exact .inl ⟨_, rfl, .inr ⟨rfl, hheader⟩, rfl⟩

/-- A descriptor's fetch raises at its first byte or delivers a record of 8 bytes within the limit (R68). -/
theorem fetch_descriptor_eq_next (hp : s.pos = some p) (hl : s.lim = some l) (h : fetch .dmatag exec s = .next t) :
    t = s.raise (.unexpectedEnd p .descriptor) ∨ ∃ d, p + 8 ≤ l ∧ decodedDescriptor d s = .next t := by
  obtain ⟨p', l', hp', hl', hcases⟩ := fetch_eq_next h
  obtain rfl : p = p' := Option.some.inj (hp.symm.trans hp')
  obtain rfl : l = l' := Option.some.inj (hl.symm.trans hl')
  obtain ⟨-, rfl⟩ | ⟨-, e, hd, -⟩ | ⟨hfits, i, rest, -, hf, -, hrun⟩ := hcases
  · exact .inl rfl
  · obtain ⟨w, hw⟩ := decode_dmatag_srcBytes s p
    cases hw.symm.trans hd
  · obtain ⟨d, hd⟩ := tagRecord_isSome hf
    exact .inr ⟨d, hfits, (exec_of_tagRecord hd s).symm.trans hrun⟩

end

/-! ## The invariant is kept

One lemma per phase says that the state a phase answers has the invariant. They share how the invariant of
the next state is put together: what stays is read off `State.served`. -/

section
variable {s t : State} {r : Request} {p l : Nat} {sub : SubPhase}

/-! ### Putting the invariant together -/

theorem State.Inv.done (h : s.Inv) (hph : s.phase = .done) : ∃ r v pos, s.Done r v pos := by
  obtain ⟨-, hphase⟩ := h
  simpa only [hph] using hphase

theorem State.Inv.failed (h : s.Inv) (hph : s.phase = .error) : ∃ r e, s.Failed r e := by
  obtain ⟨-, hphase⟩ := h
  simpa only [hph] using hphase

theorem State.Inv.cleared (h : s.Inv) (hph : s.phase = .idle) : s.Cleared := by
  obtain ⟨-, hphase⟩ := h
  simpa only [hph] using hphase

theorem State.Inv.of_cleared (hreqs : ∀ r ∈ s.requests, r.wf) (hph : s.phase = .idle) (h : s.Cleared) : s.Inv :=
  ⟨hreqs, by simpa only [hph] using h⟩

theorem State.Inv.of_busy (hreqs : ∀ r ∈ s.requests, r.wf) (hph : s.phase = .busy sub) (h : s.Busy sub r p l) :
    s.Inv :=
  ⟨hreqs, by simpa only [hph] using ⟨r, p, l, h⟩⟩

theorem State.Inv.of_done {v : Entity} (hreqs : ∀ r ∈ s.requests, r.wf) (hph : s.phase = .done) (h : s.Done r v p) :
    s.Inv :=
  ⟨hreqs, by simpa only [hph] using ⟨r, v, p, h⟩⟩

theorem State.Inv.of_failed {e : DecodeError} (hreqs : ∀ r ∈ s.requests, r.wf) (hph : s.phase = .error)
    (h : s.Failed r e) : s.Inv :=
  ⟨hreqs, by simpa only [hph] using ⟨r, e, h⟩⟩

/-- The part of the invariant about the waiting requests passes to any state that serves the same. -/
theorem State.Inv.requests_wf (h : s.Inv) (hserved : t.served = s.served) : ∀ r ∈ t.requests, r.wf := by
  obtain ⟨hreqs, -⟩ := h
  obtain ⟨-, -, heq, -⟩ := State.served_eq_iff.mp hserved
  rwa [heq]

/-- A request that runs on: the cursor has moved neither back nor past the limit, and the next phase's own part
holds. -/
theorem State.Busy.advance {sub' : SubPhase} {p' l' : Nat} (hb : s.Busy sub r p l) (hserved : t.served = s.served)
    (hresult : t.result = s.result) (herr : t.err = s.err) (hp : t.pos = some p') (hl : t.lim = some l') (hpp : p ≤ p')
    (hpl : p' ≤ l') (hll : l' ≤ r.len) (hsub : t.SubInv r p' l' sub') : t.Busy sub' r p' l' := by
  obtain ⟨hop, hreq, -⟩ := State.served_eq_iff.mp hserved
  exact ⟨hreq.trans hb.req, hb.wf, hb.acceptable, hop.trans hb.op, hp, hl, hb.start.trans hpp, hpl, hll,
    hresult.trans hb.noResult, herr.trans hb.noErr, hsub⟩

/-- A request that ends with a response: the entity is whole, of the request's type, and ends within the source. -/
theorem State.Busy.finish {v : Entity} {q : Nat} (hb : s.Busy sub r p l) (hserved : t.served = s.served)
    (hresult : t.result = some (v, q)) (herr : t.err = s.err) (hsave : t.limSave = []) (hv : v.wf) (htype : v.ofOp r.op)
    (hpq : p ≤ q) (hq : q ≤ r.len) : t.Done r v q := by
  obtain ⟨-, hreq, -⟩ := State.served_eq_iff.mp hserved
  exact ⟨hreq.trans hb.req, hb.wf, hresult, hv, htype, hb.start.trans hpq, hq, herr.trans hb.noErr, hsave⟩

/-- A request that raises: the error lies between the cursor and the limit, so within the source. -/
theorem State.Inv.raise {e : DecodeError} (hinv : s.Inv) (hb : s.Busy sub r p l) (hlayer : e.layer ≠ .tag)
    (hlo : p ≤ e.offset) (hhi : e.offset ≤ l) : (s.raise e).Inv :=
  .of_failed (hinv.requests_wf (s.raise_served e)) rfl
    ⟨hb.req, hb.wf, rfl, hb.start.trans hlo, hhi.trans hb.source, hlayer, rfl, rfl⟩

/-! ### Decoding -/

/-- A fetched command that is not delivered raises within the source; delivered, it is whole and within the
limit. -/
theorem State.Busy.fetch_command (hinv : s.Inv) (hb : s.Busy sub r p l) (h : fetch .vifcode exec s = .next t)
    (hdeliver : ∀ c : Command, c.wf → p + c.size ≤ l → decodedCommand c (p + c.size) s = .next t → t.Inv) : t.Inv := by
  have hwithin := hb.within
  obtain ⟨e, hlayer, hoffset, rfl⟩ | ⟨c, hc, hfits, hd⟩ := fetch_command_eq_next hb.pos hb.lim h
  · exact hinv.raise hb (by simp [hlayer]) (by omega) (by omega)
  · exact hdeliver c hc hfits hd

theorem State.Busy.fetch_descriptor (hinv : s.Inv) (hb : s.Busy sub r p l) (h : fetch .dmatag exec s = .next t)
    (hdeliver : ∀ d, p + 8 ≤ l → decodedDescriptor d s = .next t → t.Inv) : t.Inv := by
  obtain rfl | ⟨d, hfits, hd⟩ := fetch_descriptor_eq_next hb.pos hb.lim h
  · exact hinv.raise hb (by simp [DecodeError.layer]) le_rfl hb.within
  · exact hdeliver d hfits hd

theorem desc1_keeps_inv (hinv : s.Inv) (hph : s.phase = .busy .desc1) (h : fetch .dmatag exec s = .next t) : t.Inv := by
  obtain ⟨r, p, l, hb⟩ := hinv.busy hph
  obtain ⟨hop, hsave, -⟩ := hb.sub
  refine hb.fetch_descriptor hinv h fun d hfits hd => ?_
  rw [decodedDescriptor_desc1 hph hb.pos] at hd
  cases hd
  exact .of_done (hinv.requests_wf rfl) rfl
    (hb.finish rfl rfl rfl hsave trivial hop (by omega) (hfits.trans hb.source))

theorem cmd1_keeps_inv (hinv : s.Inv) (hph : s.phase = .busy .cmd1) (h : fetch .vifcode exec s = .next t) : t.Inv := by
  obtain ⟨r, p, l, hb⟩ := hinv.busy hph
  obtain ⟨hop, hsave, -⟩ := hb.sub
  refine hb.fetch_command hinv h fun c hc hfits hd => ?_
  rw [decodedCommand_cmd1 hph] at hd
  cases hd
  exact .of_done (hinv.requests_wf rfl) rfl
    (hb.finish rfl rfl rfl hsave hc hop (by omega) (hfits.trans hb.source))

/-- A descriptor opens a region with no command yet, inside the source or inside the packet's window. -/
theorem tdesc_keeps_inv (hinv : s.Inv) (hph : s.phase = .busy .tdesc) (h : fetch .dmatag exec s = .next t) : t.Inv := by
  obtain ⟨r, p, l, hb⟩ := hinv.busy hph
  have hsource := hb.source
  refine hb.fetch_descriptor hinv h fun d hfits hd => ?_
  rw [decodedDescriptor_tdesc hph hb.pos hb.lim] at hd
  cases hd
  refine .of_busy (hinv.requests_wf rfl) rfl
    (hb.advance (sub' := .tloop) rfl rfl rfl rfl rfl (by omega) (by omega) (by omega)
      ⟨p, _, d, rfl, rfl, rfl, rfl, hb.start, by simp, rfl, ?_⟩)
  obtain ⟨hop, hsave, rfl, hstart⟩ | ⟨w, hwin, hopen, -⟩ := hb.sub
  · exact .inl ⟨hop, hstart, by simp only [hsave], rfl⟩
  · obtain rfl := hwin.lim
    exact .inr ⟨hwin.packet, w, hwin.winEnd, by simp only [hwin.limSave], rfl, hwin.tags, hopen⟩

/-! ### The tag region -/

theorem commandsSize_append_singleton (cs : List Command) (c : Command) :
    commandsSize (cs ++ [c]) = commandsSize cs + c.size := by
  simp [commandsSize]

/-- One more command of the region: the commands reach on to the cursor. -/
theorem State.InRegion.append_command {c : Command} {ts e : Nat} {d : Descriptor} (h : s.InRegion r p l ts e d)
    (hc : c.wf) :
    State.InRegion { s with pos := some (p + c.size), cmds := s.cmds ++ [c] } r (p + c.size) l ts e d where
  tagStart := h.tagStart
  tagEnd := h.tagEnd
  desc := h.desc
  region := h.region
  start := h.start
  cmds := by
    simp only [List.mem_append, List.mem_singleton]
    rintro c' (hmem | rfl)
    · exact h.cmds c' hmem
    · exact hc
  pos := by
    rw [commandsSize_append_singleton, ← Nat.add_assoc, ← h.pos]
  limits := h.limits

theorem region_command_keeps_inv (hinv : s.Inv) (hph : s.phase = .busy .tloop) (h : fetch .vifcode exec s = .next t) :
    t.Inv := by
  obtain ⟨r, p, l, hb⟩ := hinv.busy hph
  obtain ⟨ts, e, d, hreg⟩ := hb.sub
  refine hb.fetch_command hinv h fun c hc hfits hd => ?_
  rw [decodedCommand_tloop hph] at hd
  cases hd
  exact .of_busy (hinv.requests_wf rfl) hph
    (hb.advance (sub' := .tloop) rfl rfl rfl rfl hb.lim (by omega) hfits hb.source
      ⟨ts, e, d, hreg.append_command hc⟩)

theorem chainOpen_append_singleton {tags : List Tag} {g : Tag} (h : chainOpen tags)
    (hg : chainClass g.descriptor.id = .continue_) : chainOpen (tags ++ [g]) := by
  simp only [chainOpen, List.mem_append, List.mem_singleton]
  rintro g' (hmem | rfl)
  · exact h g' hmem
  · exact hg

theorem chainOk_append_singleton {tags : List Tag} {g : Tag} (h : chainOpen tags) : chainOk (tags ++ [g]) := by
  rwa [chainOk, List.dropLast_concat]

theorem chainOk_of_chainOpen {tags : List Tag} (h : chainOpen tags) : chainOk tags :=
  fun g hg => h g (List.dropLast_subset tags hg)

theorem State.InRegion.limits_of_tag {ts e : Nat} {d : Descriptor} (h : s.InRegion r p l ts e d)
    (htag : r.op.toNat = 2) : s.limSave = [r.len] ∧ l = min r.len e := by
  obtain ⟨-, -, hsave, hlim⟩ | ⟨hpacket, -⟩ := h.limits
  · exact ⟨hsave, hlim⟩
  · obtain hop | hop := hpacket <;> omega

theorem State.InRegion.limits_of_packet {ts e : Nat} {d : Descriptor} (h : s.InRegion r p l ts e d)
    (htag : r.op.toNat ≠ 2) :
    isPacket r.op ∧ ∃ w, s.winEnd = some w ∧ s.limSave = [min r.len w, r.len] ∧ l = min (min r.len w) e ∧
      (∀ g ∈ s.tags, g.wf) ∧ chainOpen s.tags := by
  obtain ⟨hop, -⟩ | hlimits := h.limits
  · exact absurd hop htag
  · exact hlimits

/-- The tag at the end of its region is whole; it ends the request, or the packet's window is in force again. -/
theorem region_end_keeps_inv {e : Nat} (hinv : s.Inv) (hph : s.phase = .busy .tloop) (hp : s.pos = some p)
    (he : s.tagEnd = some e) (hle : e ≤ p) (h : stepRegionEnd s = .next t) : t.Inv := by
  obtain ⟨r, p', l, hb⟩ := hinv.busy hph
  obtain ⟨ts, e', d, hreg⟩ := hb.sub
  obtain rfl : p = p' := Option.some.inj (hp.symm.trans hb.pos)
  obtain rfl : e = e' := Option.some.inj (he.symm.trans hreg.tagEnd)
  have htag := hreg.tag_wf (Nat.le_antisymm (hb.within.trans hreg.lim_le_tagEnd) hle)
  have hwithin := hb.within
  have hsource := hb.source
  obtain ⟨q, op, d', x, rest, hq, hop, hd, hsave, hcases⟩ := stepRegionEnd_eq_next h
  obtain rfl : p = q := Option.some.inj (hp.symm.trans hq)
  obtain rfl : r.op = op := Option.some.inj (hb.op.symm.trans hop)
  obtain rfl : d = d' := Option.some.inj (hreg.desc.symm.trans hd)
  obtain ⟨htwo, rfl⟩ | ⟨htwo, rfl⟩ := hcases
  · obtain ⟨hsave', -⟩ := hreg.limits_of_tag htwo
    cases hsave.symm.trans hsave'
    exact .of_done (hinv.requests_wf rfl) rfl (hb.finish rfl rfl rfl rfl htag htwo le_rfl (by omega))
  · obtain ⟨hpacket, w, hw, hsave', hlim, htags, hopen⟩ := hreg.limits_of_packet htwo
    cases hsave.symm.trans hsave'
    have hwin : ∀ g ∈ s.tags ++ [⟨d, s.cmds⟩], g.wf := by
      simp only [List.mem_append, List.mem_singleton]
      rintro g (hmem | rfl)
      · exact htags g hmem
      · exact htag
    refine .of_busy (hinv.requests_wf rfl) rfl
      (hb.advance rfl rfl rfl hb.pos rfl le_rfl (by omega) (by omega) ?_)
    cases hclass : chainClass d.id with
    | terminate => exact ⟨w, ⟨hw, hpacket, rfl, rfl, hwin⟩, chainOk_append_singleton hopen, by omega⟩
    | continue_ =>
      exact ⟨w, ⟨hw, hpacket, rfl, rfl, hwin⟩, chainOk_append_singleton hopen,
        .inl (chainOpen_append_singleton hopen hclass), by omega⟩

/-! ### The packet's phases -/

/-- Either framing opens a window that begins at the cursor's new place, within the limit. -/
theorem openWindow_keeps_inv {start winEnd : Nat} (hinv : s.Inv) (hb : s.Busy .frame r p l) (hps : p ≤ start)
    (hsl : start ≤ l) (hsw : start ≤ winEnd) : (openWindow start winEnd l s).Inv := by
  obtain ⟨hpacket, hsave, rfl, -, htags⟩ := hb.sub
  have hopen : chainOpen s.tags := by simp [htags, chainOpen]
  exact .of_busy (hinv.requests_wf rfl) rfl
    (hb.advance (sub' := .ploop) rfl rfl rfl rfl rfl hps (by omega) (by omega)
      ⟨winEnd, ⟨rfl, hpacket, congrArg _ hsave, rfl, by simp [openWindow, htags]⟩, chainOk_of_chainOpen hopen, .inl hopen,
        hsw⟩)

theorem frame_keeps_inv (hinv : s.Inv) (hph : s.phase = .busy .frame) (h : stepFrame s = .next t) : t.Inv := by
  obtain ⟨r, p, l, hb⟩ := hinv.busy hph
  obtain ⟨op, p', l', -, hp, hl, hcases⟩ := stepFrame_eq_next h
  obtain rfl : p = p' := Option.some.inj (hb.pos.symm.trans hp)
  obtain rfl : l = l' := Option.some.inj (hb.lim.symm.trans hl)
  obtain ⟨-, r', -, rfl⟩ | ⟨-, hfits, rfl⟩ | ⟨-, -, rfl⟩ := hcases
  · exact openWindow_keeps_inv hinv hb le_rfl hb.within (by omega)
  · exact openWindow_keeps_inv hinv hb (by omega) hfits (by omega)
  · exact hinv.raise hb (by simp [DecodeError.layer]) le_rfl hb.within

theorem window_keeps_inv (hinv : s.Inv) (hph : s.phase = .busy .ploop) (h : stepWindow s = .next t) : t.Inv := by
  obtain ⟨r, p, l, hb⟩ := hinv.busy hph
  obtain ⟨w, hwin, hchain, hopen, -⟩ := hb.sub
  obtain ⟨p', w', hp, hw, hcases⟩ := stepWindow_eq_next h
  obtain rfl : p = p' := Option.some.inj (hb.pos.symm.trans hp)
  obtain rfl : w = w' := Option.some.inj (hwin.winEnd.symm.trans hw)
  obtain ⟨hlt, rfl⟩ | ⟨-, x, rest, hsave, rfl⟩ := hcases
  · exact .of_busy (hinv.requests_wf rfl) rfl
      (hb.advance (sub' := .tdesc) rfl rfl rfl hb.pos hb.lim le_rfl hb.within hb.source
        (.inr ⟨w, ⟨hwin.winEnd, hwin.packet, hwin.limSave, hwin.lim, hwin.tags⟩,
          hopen.resolve_right hlt.ne, hlt⟩))
  · cases hsave.symm.trans hwin.limSave
    exact .of_done (hinv.requests_wf rfl) rfl
      (hb.finish rfl rfl rfl rfl ⟨hwin.tags, hchain⟩ hwin.packet le_rfl (hb.within.trans hb.source))

theorem padding_keeps_inv (hinv : s.Inv) (hph : s.phase = .busy .pad) (h : stepPadding s = .next t) : t.Inv := by
  obtain ⟨r, p, l, hb⟩ := hinv.busy hph
  obtain ⟨w, hwin, hchain, hle⟩ := hb.sub
  obtain ⟨p', l', w', hp, hl, hw, hcases⟩ := stepPadding_eq_next h
  obtain rfl : p = p' := Option.some.inj (hb.pos.symm.trans hp)
  obtain rfl : l = l' := Option.some.inj (hb.lim.symm.trans hl)
  obtain rfl : w = w' := Option.some.inj (hwin.winEnd.symm.trans hw)
  rw [Nat.add_sub_cancel' hle] at hcases
  obtain ⟨hfits, rfl⟩ | ⟨-, rfl⟩ := hcases
  · exact .of_busy (hinv.requests_wf rfl) rfl
      (hb.advance (sub' := .ploop) rfl rfl rfl rfl hb.lim hle hfits hb.source
        ⟨w, ⟨hwin.winEnd, hwin.packet, hwin.limSave, hwin.lim, hwin.tags⟩, hchain, .inr rfl, le_rfl⟩)
  · exact hinv.raise hb (by simp [DecodeError.layer]) le_rfl hb.within

/-! ### Between requests -/

theorem assertReset_inv (hinv : s.Inv) : s.assertReset.Inv := by
  obtain ⟨hreqs, -⟩ := hinv
  exact .of_cleared hreqs rfl (by constructor <;> rfl)

/-- The sub-phase of each request code begins with no limit saved, and at the request's start. -/
theorem accept_subInv (s : State) {r : Request} (hop : r.op.toNat ≤ 4) :
    (s.accept r).SubInv r r.p0 r.len (startPhase r.op) := by
  have hcodes : r.op.toNat = 0 ∨ r.op.toNat = 1 ∨ r.op.toNat = 2 ∨ isPacket r.op := by
    simp only [isPacket]; omega
  obtain h | h | h | hpacket := hcodes
  · simp only [startPhase, h]
    exact ⟨h, rfl, rfl, rfl⟩
  · simp only [startPhase, h]
    exact ⟨h, rfl, rfl, rfl⟩
  · simp only [startPhase, h]
    exact .inl ⟨h, rfl, rfl, rfl⟩
  · have hstart : startPhase r.op = .frame := by
      obtain h | h := hpacket <;> simp only [startPhase, h]
    rw [hstart]
    exact ⟨hpacket, rfl, rfl, rfl, rfl⟩

theorem accept_inv (hreqs : ∀ r ∈ s.requests, r.wf) (hwf : r.wf) (hacc : r.acceptable) : (s.accept r).Inv := by
  obtain ⟨hop, hle⟩ := hacc
  exact .of_busy hreqs rfl
    ⟨rfl, hwf, ⟨hop, hle⟩, rfl, rfl, rfl, le_rfl, hle, le_rfl, rfl, rfl, accept_subInv s hop⟩

/-- What rests is read from no waiting request. -/
theorem State.Resting.withWaiting_inv {ws : List Request} (hrest : s.Resting) (hinv : s.Inv)
    (hws : ∀ r ∈ ws, r.wf) : (s.withWaiting ws).Inv := by
  obtain hph | hph | hph := hrest
  · have hc := hinv.cleared hph
    exact .of_cleared hws hph { hc with }
  · obtain ⟨r, v, pos, hd⟩ := hinv.done hph
    exact .of_done hws hph { hd with }
  · obtain ⟨r, e, hf⟩ := hinv.failed hph
    exact .of_failed hws hph { hf with }

theorem resting_keeps_inv (hinv : s.Inv) (hrest : s.Resting) (h : stepResting s = .next t) : t.Inv := by
  have ⟨hreqs, _⟩ := hinv
  obtain ⟨-, rfl⟩ | ⟨r, rest, hlist, hcases⟩ := stepResting_eq_next h
  · exact hinv
  · rw [hlist, List.forall_mem_cons] at hreqs
    obtain ⟨hwf, hwaiting⟩ := hreqs
    obtain ⟨hacc, rfl⟩ | ⟨-, rfl⟩ := hcases
    · exact accept_inv hwaiting hwf hacc
    · exact hrest.withWaiting_inv hinv hwaiting

end

/-- Settles O45: reset, rest and every phase of a running request answer a state with the invariant. -/
theorem everyStepKeepsTheInvariant : Obligations.EveryStepKeepsTheInvariant := by
  intro s t hinv hstep
  obtain ⟨-, rfl⟩ | ⟨-, ⟨hrest, h⟩ | ⟨hph | hph, h⟩ | ⟨hph, h⟩ | ⟨hph, h⟩ | ⟨hph, h⟩ |
      ⟨hph, p, e, hp, he, ⟨-, h⟩ | ⟨hle, h⟩⟩ | ⟨hph, h⟩⟩ := step_eq_next hstep
  · exact assertReset_inv hinv
  · exact resting_keeps_inv hinv hrest h
  · exact desc1_keeps_inv hinv hph h
  · exact tdesc_keeps_inv hinv hph h
  · exact cmd1_keeps_inv hinv hph h
  · exact frame_keeps_inv hinv hph h
  · exact window_keeps_inv hinv hph h
  · exact region_command_keeps_inv hinv hph h
  · exact region_end_keeps_inv hinv hph hp he hle h
  · exact padding_keeps_inv hinv hph h

/-! ## The limits in force (R133) -/

section
variable {s : State} {r : Request} {p l : Nat}

theorem State.Busy.limSave_length {sub : SubPhase} (hb : s.Busy sub r p l) : s.limSave.length ≤ 2 := by
  have hsub := hb.sub
  cases sub with
  | desc1 | cmd1 | frame =>
    obtain ⟨-, hsave, -⟩ := hsub
    simp [hsave]
  | ploop | pad =>
    obtain ⟨w, hwin, -⟩ := hsub
    simp [hwin.limSave]
  | tdesc =>
    obtain ⟨-, hsave, -⟩ | ⟨w, hwin, -⟩ := hsub
    · simp [hsave]
    · simp [hwin.limSave]
  | tloop =>
    obtain ⟨ts, e, d, hreg⟩ := hsub
    obtain ⟨-, -, hsave, -⟩ | ⟨-, w, -, hsave, -⟩ := hreg.limits
    · simp [hsave]
    · simp [hsave]

theorem State.Inv.limSave_length (hinv : s.Inv) : s.limSave.length ≤ 2 := by
  cases hph : s.phase with
  | idle => simp [(hinv.cleared hph).limSave]
  | busy sub =>
    obtain ⟨r, p, l, hb⟩ := hinv.busy hph
    exact hb.limSave_length
  | done =>
    obtain ⟨r, v, pos, hd⟩ := hinv.done hph
    simp [hd.limSave]
  | error =>
    obtain ⟨r, e, hf⟩ := hinv.failed hph
    simp [hf.limSave]

end

/-- Settles O47: the invariant names the saved limits and `LIM` in every phase. -/
theorem limitsAreTheLeastInForce : Obligations.LimitsAreTheLeastInForce := by
  intro s hinv
  refine ⟨hinv.limSave_length, fun op hph hop hpacket => ?_⟩
  obtain ⟨r, p, l, hb⟩ := hinv.busy hph
  obtain ⟨ts, e, d, hreg⟩ := hb.sub
  obtain rfl : op = r.op := Option.some.inj (hop.symm.trans hb.op)
  obtain ⟨-, w, hw, hsave, rfl, -⟩ := hreg.limits_of_packet (by omega)
  exact ⟨r, w, e, hb.req, hw, hreg.tagEnd, hb.lim, hsave⟩

/-! ## Every error is taken alike (R129) -/

section
variable {s t : State}

theorem decodedCommand_not_error {c : Command} {q : Nat} (h : decodedCommand c q s = .next t) : t.phase ≠ .error := by
  obtain ⟨-, rfl⟩ | ⟨hph, rfl⟩ := decodedCommand_eq_next h
  · simp
  · simp [hph]

theorem decodedDescriptor_not_error {d : Descriptor} (h : decodedDescriptor d s = .next t) : t.phase ≠ .error := by
  obtain ⟨p, -, ⟨-, rfl⟩ | ⟨-, l, -, rfl⟩⟩ := decodedDescriptor_eq_next h
  · simp
  · simp

theorem exec_error {i : Instr} (h : exec i s = .next t) (he : t.phase = .error) : ∃ e, t = s.raise e := by
  cases hf : i.format with
  | vifcode =>
    obtain ⟨p, -, hd | rfl⟩ := exec_command_eq_next hf h
    · exact absurd he (decodedCommand_not_error hd)
    · exact ⟨_, rfl⟩
  | dmatag =>
    obtain ⟨d, hd⟩ := tagRecord_isSome hf
    rw [exec_of_tagRecord hd] at h
    exact absurd he (decodedDescriptor_not_error h)

theorem fetch_error {f : Format} (h : fetch f exec s = .next t) (he : t.phase = .error) : ∃ e, t = s.raise e := by
  obtain ⟨p, l, -, -, ⟨-, rfl⟩ | ⟨-, e, -, rfl⟩ | ⟨-, i, rest, -, -, -, hrun⟩⟩ := fetch_eq_next h
  · exact ⟨_, rfl⟩
  · exact ⟨_, rfl⟩
  · exact exec_error hrun he

/-- A step of a running request that reaches `ERROR` is the one operation that raises. -/
theorem step_error (hr : s.resetLine = false) (hrun : s.Running) (h : step s = .next t) (he : t.phase = .error) :
    ∃ e, t = s.raise e := by
  obtain ⟨hreset, -⟩ | ⟨-, ⟨hrest, -⟩ | ⟨-, h⟩ | ⟨-, h⟩ | ⟨-, h⟩ | ⟨hph, h⟩ | ⟨-, p, e, -, -, ⟨-, h⟩ | ⟨-, h⟩⟩ |
      ⟨-, h⟩⟩ := step_eq_next h
  · exact absurd hreset (by simp [hr])
  · exact absurd hrest hrun.not_resting
  · exact fetch_error h he
  · exact fetch_error h he
  · obtain ⟨op, p, l, -, -, -, ⟨-, r, -, rfl⟩ | ⟨-, -, rfl⟩ | ⟨-, -, rfl⟩⟩ := stepFrame_eq_next h
    · cases he
    · cases he
    · exact ⟨_, rfl⟩
  · obtain ⟨p, w, -, -, ⟨-, rfl⟩ | ⟨-, l, rest, -, rfl⟩⟩ := stepWindow_eq_next h
    · cases he
    · cases he
  · exact fetch_error h he
  · obtain ⟨p, op, d, l, rest, -, -, -, -, ⟨-, rfl⟩ | ⟨-, rfl⟩⟩ := stepRegionEnd_eq_next h
    · cases he
    · cases he
  · obtain ⟨p, l, w, -, -, -, ⟨-, rfl⟩ | ⟨-, rfl⟩⟩ := stepPadding_eq_next h
    · cases he
    · exact ⟨_, rfl⟩

end

/-- Settles O41: what reaches `ERROR` was raised, and raising writes the four registers. -/
theorem everyErrorIsTakenAlike : Obligations.EveryErrorIsTakenAlike := by
  intro s t hr hrun hstep he
  obtain ⟨e, rfl⟩ := step_error hr hrun hstep he
  exact ⟨e, rfl, rfl⟩

/-! ## How far an item moves the cursor (R132) -/

section
variable {s t : State} {p : Nat}

theorem fetch_command_advances (hp : s.pos = some p) (h : fetch .vifcode exec s = .next t) :
    t.phase = .error ∨ (s.phase = .busy .tloop → t.phase = .busy .tloop) ∧ ∃ q, p + 4 ≤ q ∧ t.pos = some q := by
  obtain ⟨-, l, -, hl, -⟩ := fetch_eq_next h
  obtain ⟨e, -, -, rfl⟩ | ⟨c, -, -, hd⟩ := fetch_command_eq_next hp hl h
  · exact .inl rfl
  · have hsize := c.four_le_size
    refine .inr ⟨fun hph => ?_, _, by omega, decodedCommand_pos hd⟩
    rw [decodedCommand_tloop hph] at hd
    cases hd
    exact hph

theorem fetch_descriptor_advances (hp : s.pos = some p) (h : fetch .dmatag exec s = .next t) :
    t.phase = .error ∨ t.pos = some (p + 8) := by
  obtain ⟨-, l, -, hl, -⟩ := fetch_eq_next h
  obtain rfl | ⟨d, -, hd⟩ := fetch_descriptor_eq_next hp hl h
  · exact .inl rfl
  · obtain ⟨p', hp', hcases⟩ := decodedDescriptor_eq_next hd
    obtain rfl : p = p' := Option.some.inj (hp.symm.trans hp')
    obtain ⟨-, rfl⟩ | ⟨-, l', -, rfl⟩ := hcases
    · exact .inr rfl
    · exact .inr rfl

theorem stepRegionEnd_leaves_region (h : stepRegionEnd s = .next t) : t.phase ≠ .busy .tloop ∧ t.pos = s.pos := by
  obtain ⟨_, op, d, l, rest, -, -, -, -, ⟨-, rfl⟩ | ⟨-, rfl⟩⟩ := stepRegionEnd_eq_next h
  · exact ⟨by simp, rfl⟩
  · refine ⟨?_, rfl⟩
    cases chainClass d.id <;> simp [afterTag]

/-- A step of a region fails, stays with the cursor moved over a command, or leaves with the cursor in place. -/
theorem step_tloop_advances (hr : s.resetLine = false) (hph : s.phase = .busy .tloop) (hp : s.pos = some p)
    (h : step s = .next t) :
    t.phase = .error ∨ (t.phase = .busy .tloop ∧ ∃ q, p + 4 ≤ q ∧ t.pos = some q) ∨
      (t.phase ≠ .busy .tloop ∧ t.pos = some p) := by
  obtain ⟨e, he⟩ : ∃ e, s.tagEnd = some e := by
    rw [step_tloop hr hph] at h
    obtain ⟨_, -, h⟩ := need_eq_next h
    obtain ⟨e, he, -⟩ := need_eq_next h
    exact ⟨e, he⟩
  by_cases hlt : p < e
  · rw [step_in_region hr hph hp he hlt] at h
    exact (fetch_command_advances hp h).imp_right fun ⟨hstay, hpos⟩ => .inl ⟨hstay hph, hpos⟩
  · rw [step_at_region_end hr hph hp he (Nat.le_of_not_lt hlt)] at h
    obtain ⟨hleft, hpos⟩ := stepRegionEnd_leaves_region h
    exact .inr (.inr ⟨hleft, hpos.trans hp⟩)

end

/-- Settles O50: a fetch that does not fail moves the cursor over its item, and the end of a region moves nothing. -/
theorem everyItemAdvancesTheCursor : Obligations.EveryItemAdvancesTheCursor := by
  intro s t p p' hr hstep hp hp'
  have region (hph : s.phase = .busy .tloop) := step_tloop_advances hr hph hp hstep
  have descriptor (hph : s.phase = .busy .desc1 ∨ s.phase = .busy .tdesc) (hne : t.phase ≠ .error) : p' = p + 8 := by
    have h : fetch .dmatag exec s = .next t := by
      obtain hph | hph := hph
      · exact (step_desc1 hr hph).symm.trans hstep
      · exact (step_tdesc hr hph).symm.trans hstep
    exact Option.some.inj (hp'.symm.trans ((fetch_descriptor_advances hp h).resolve_left hne))
  refine ⟨fun hph ht => ?_, fun hph ht => ?_, fun hph ht => descriptor (.inr hph) (by simp [ht]),
    fun hph ht => descriptor (.inl hph) (by simp [ht]), fun hph ht => ?_⟩
  · obtain he | ⟨-, q, hq, hpos⟩ | ⟨hne, -⟩ := region hph
    · simp [ht] at he
    · exact Option.some.inj (hpos.symm.trans hp') ▸ hq
    · exact absurd ht hne
  · rw [step_cmd1 hr hph] at hstep
    obtain he | ⟨-, q, hq, hpos⟩ := fetch_command_advances hp hstep
    · simp [ht] at he
    · exact Option.some.inj (hpos.symm.trans hp') ▸ hq
  · obtain he | ⟨hstay, -⟩ | ⟨-, hpos⟩ := region hph
    · simp [he] at ht
    · simp [hstay] at ht
    · exact Option.some.inj (hp'.symm.trans hpos)

/-! ## Acceptance, rest and response (R121, R130) -/

section
variable {s : State} {r : Request} {rest : List Request}

theorem step_accepts (hr : s.resetLine = false) (hrest : s.Resting) (hlist : s.requests = r :: rest)
    (hacc : r.acceptable) : step s = .next ((s.withWaiting rest).accept r) := by
  rw [step_of_resting hr hrest]
  simp only [stepResting, hlist, if_pos hacc]
  rfl

theorem step_turns_away (hr : s.resetLine = false) (hrest : s.Resting) (hlist : s.requests = r :: rest)
    (hacc : ¬ r.acceptable) : step s = .next (s.withWaiting rest) := by
  rw [step_of_resting hr hrest]
  simp only [stepResting, hlist, if_neg hacc]
  rfl

theorem step_rests (hr : s.resetLine = false) (hrest : s.Resting) (hlist : s.requests = []) : step s = .next s := by
  rw [step_of_resting hr hrest]
  simp only [stepResting, hlist]

theorem State.Running.response_none (hrun : s.Running) : s.response = none := by
  obtain ⟨sub, hph⟩ := hrun
  simp only [State.response, hph]

end

/-- Settles O2: a request is accepted or turned away by its code and its start alone. -/
theorem acceptanceWritesEveryRegister : Obligations.AcceptanceWritesEveryRegister := by
  intro s r rest hr hrest hlist
  constructor
  · intro hop hle
    refine ⟨_, step_accepts hr hrest hlist ⟨hop, hle⟩, rfl, rfl, rfl, rfl, rfl, rfl, rfl, rfl, rfl, rfl, rfl, rfl, rfl,
      rfl, rfl, fun h => ?_, fun h => ?_, fun h => ?_, fun h => ?_⟩
    · simp [startPhase, h]
    · simp [startPhase, h]
    · simp [startPhase, h]
    · obtain h | h := h <;> simp [startPhase, h]
  · intro hbad
    have hacc : ¬ r.acceptable := by simp only [Request.acceptable]; omega
    exact ⟨_, step_turns_away hr hrest hlist hacc, rfl, State.response_congr rfl rfl rfl⟩

/-- Settles O4: the response is read off the phase, and a rest changes nothing. -/
theorem responseByPhase : Obligations.ResponseByPhase := by
  intro s
  refine ⟨fun v q hph hres => ?_, fun e hph herr => ?_, fun hph => ?_, fun hrun => hrun.response_none,
    fun hr hrest hlist => step_rests hr hrest hlist⟩
  · simp only [State.response, hph, hres, Option.map_some]
  · simp only [State.response, hph, herr, Option.map_some]
  · simp only [State.response, hph]

/-! ## The decoded instruction is run -/

/-- Settles O15: both phases of each format fetch at the cursor, and the decoder answers well-formed instructions. -/
theorem stepRunsTheDecodedInstruction : Obligations.StepRunsTheDecodedInstruction := by
  intro s p l i rest
  constructor
  · intro hat hfits hd
    have ⟨_, hp, hl, _⟩ := hat
    obtain ⟨-, hwf⟩ := decode_ok hd
    exact ⟨hwf, (step_at_command hat).trans (fetch_ok (f := .vifcode) hp hl hfits hd exec)⟩
  · intro hat hfits hd
    have ⟨_, hp, hl, _⟩ := hat
    obtain ⟨-, hwf⟩ := decode_ok hd
    exact ⟨hwf, (step_at_descriptor hat).trans (fetch_ok (f := .dmatag) hp hl hfits hd exec)⟩

/-! ## The packet's phases (R124, R125, R128) -/

section
variable {s : State} {p l : Nat} {op : BitVec 3}

/-- External framing takes the window from the request. -/
theorem stepFrame_external {r : Request} (hop : s.op = some op) (h3 : op.toNat = 3) (hp : s.pos = some p)
    (hl : s.lim = some l) (hreq : s.req = some r) : stepFrame s = .next (openWindow p (p + r.n) l s) := by
  simp [stepFrame, hop, hp, hl, hreq, h3]

/-- Self-describing framing reads the window's length from 4 bytes. -/
theorem stepFrame_self (hop : s.op = some op) (h4 : op.toNat = 4) (hp : s.pos = some p) (hl : s.lim = some l) :
    stepFrame s =
      if p + 4 ≤ l then .next (openWindow (p + 4) (p + 4 + 16 * s.memRead p 4) l s)
      else .next (s.raise (.unexpectedEnd p .packet)) := by
  simp [stepFrame, hop, hp, hl, h4]

theorem State.memRead_four (s : State) (p : Nat) :
    s.memRead p 4 = (s.srcByte p).toNat + 256 * (s.srcByte (p + 1)).toNat + 256 ^ 2 * (s.srcByte (p + 2)).toNat
      + 256 ^ 3 * (s.srcByte (p + 3)).toNat := by
  simp only [State.memRead_succ, State.memRead_zero, Nat.add_assoc, Nat.reduceAdd]
  omega

end

/-- Settles O37: the two framings differ in what they read, and open the window alike. -/
theorem framingOpensTheWindow : Obligations.FramingOpensTheWindow := by
  intro s p l op r hr hph hp hl hop hreq
  rw [step_frame hr hph]
  refine ⟨fun h3 => ?_, fun h4 hshort => ?_, fun h4 hfits w hw => ?_⟩
  · simp only [stepFrame_external hop h3 hp hl hreq, openWindow, State.pushLimit, hp]
  · rw [stepFrame_self hop h4 hp hl, if_neg (Nat.not_le.mpr hshort)]
  · rw [stepFrame_self hop h4 hp hl, if_pos hfits, State.memRead_four, ← hw]
    rfl

/-- Settles O38: the window check compares the cursor with `WIN_END` and reads nothing. -/
theorem windowCheckEndsThePacket : Obligations.WindowCheckEndsThePacket := by
  intro s p w hr hph hp hw
  rw [step_ploop hr hph]
  refine ⟨fun hlt => ?_, fun hle l rest hsave => ?_⟩
  · simp [stepWindow, hp, hw, hlt]
  · simp [stepWindow, hp, hw, Nat.not_lt.mpr hle, popLimit_cons hsave, State.finish]

/-- Settles O39: the skipped bytes must lie below the limit, and the skip ends at `WIN_END`. -/
theorem paddingSkipsToTheWindowEnd : Obligations.PaddingSkipsToTheWindowEnd := by
  intro s p l w hr hph hp hl hw hle
  rw [step_pad hr hph]
  have hskip : p + (w - p) = w := Nat.add_sub_cancel' hle
  refine ⟨fun hfits => ?_, fun hshort => ?_⟩
  · simp [stepPadding, hp, hl, hw, hskip, hfits]
  · simp [stepPadding, hp, hl, hw, hskip, Nat.not_le.mpr hshort]

end Sys2Proof.Machine

namespace Sys2Proof

/-- A field of a number's word is a field of the number. -/
theorem field_ofNat {n lo len : Nat} (v : Nat) (h : lo + len ≤ n) :
    field (BitVec.ofNat n v) lo len = BitVec.ofNat len (v / 2 ^ lo) := by
  obtain ⟨k, rfl⟩ := Nat.exists_eq_add_of_le h
  rw [field_ofNat_eq_iff, BitVec.toNat_ofNat, Nat.add_assoc, Nat.pow_add 2 lo, Nat.mod_mul_right_div_self,
    Nat.pow_add 2 len, Nat.mod_mul_right_mod]

theorem ofNat_one_beq_one (v : Nat) : (BitVec.ofNat 1 v == 1) = decide (v % 2 = 1) := by
  rw [Bool.eq_iff_iff, beq_iff_eq, decide_eq_true_iff, ← BitVec.toNat_inj, BitVec.toNat_ofNat]
  rfl

theorem field_eq_ofNat {n : Nat} (w : BitVec n) (lo len : Nat) :
    field w lo len = BitVec.ofNat len (w.toNat / 2 ^ lo) := by
  rw [field, Nat.shiftRight_eq_div_pow]

theorem unpackOf_eq_ofNat (make : BitVec 10 → Bool → Bool → Nat → Instr) (imm : BitVec 16) (num : Byte) :
    unpackOf make imm num =
      make (BitVec.ofNat 10 imm.toNat) (imm.toNat / 2 ^ 14 % 2 = 1) (imm.toNat / 2 ^ 15 % 2 = 1) (numEffOf num) := by
  simp only [unpackOf, field_eq_ofNat, ofNat_one_beq_one, pow_zero, Nat.div_one]

end Sys2Proof

namespace Sys2Proof.Machine

/-! ## The functions over a cursor, on an unchanging source

The two decode functions read what the engine reads, and answer the record and the error that the engine's
own decoder gives (R68, R84). -/

section
variable {s : State} {p l : Nat}

theorem readLE_source (hc : s.sourceChanged = false) (a k : Nat) : readLE s.source a k = s.memRead a k := by
  simp only [readLE, State.memRead, State.srcBytes, State.srcByte, hc, Bool.false_eq_true, if_false]

/-! ### Descriptors -/

theorem descriptorFn_short {src : Memory} (h : l < p + 8) :
    descriptorFn src l p = .error (.unexpectedEnd p .descriptor) := if_pos h

theorem descriptorFn_fits (hc : s.sourceChanged = false) (h : p + 8 ≤ l) :
    descriptorFn s.source l p = .ok (descriptorOfWord (BitVec.ofNat 64 (s.memRead p 8)), p + 8) := by
  rw [descriptorFn, if_neg (Nat.not_lt.mpr h), readLE_source hc, descriptorOfWord]
  simp only [field_ofNat, Nat.reduceAdd, Nat.reduceLeDiff, ofNat_one_beq_one, pow_zero, Nat.div_one]

/-- A descriptor's step delivers what `DecodeDescriptor` returns, a record of 8 bytes within the limit, or takes what
it raises. -/
theorem step_of_descriptorFn (hat : s.AtDescriptor p l) (hc : s.sourceChanged = false) :
    (∀ d q, descriptorFn s.source l p = .ok (d, q) →
      (q = p + 8 ∧ p + 8 ≤ l) ∧ step s = .next (s.withDescriptor d p l)) ∧
      ∀ e, descriptorFn s.source l p = .error e → step s = .next (s.raise e) := by
  by_cases hfits : p + 8 ≤ l
  · rw [descriptorFn_fits hc hfits]
    refine ⟨fun d q hd => ?_, nofun⟩
    rw [Except.ok.injEq, Prod.mk.injEq] at hd
    obtain ⟨rfl, rfl⟩ := hd
    exact ⟨⟨rfl, hfits⟩, step_at_descriptor_fits hat hfits⟩
  · rw [descriptorFn_short (Nat.lt_of_not_le hfits)]
    refine ⟨nofun, fun e he => ?_⟩
    cases he
    exact step_at_descriptor_short hat (Nat.lt_of_not_le hfits)

/-! ### Commands -/

theorem commandFn_short {src : Memory} (h : l < p + 4) :
    commandFn src l p = .error (.unexpectedEnd p .command) := if_pos h

/-- The fields that `DecodeCommand` takes from the header's number are those of its bytes (R54). -/
theorem header_fields (s : State) (p : Nat) :
    s.memRead p 4 % 2 ^ 16 = (s.half p).toNat ∧ s.memRead p 4 / 2 ^ 16 % 2 ^ 8 = (s.srcByte (p + 2)).toNat ∧
      s.memRead p 4 / 2 ^ 24 % 2 ^ 8 = (s.srcByte (p + 3)).toNat := by
  have h0 := (s.srcByte p).isLt
  have h1 := (s.srcByte (p + 1)).isLt
  have h2 := (s.srcByte (p + 2)).isLt
  have h3 := (s.srcByte (p + 3)).isLt
  simp only [State.half_toNat, State.memRead_succ, State.memRead_zero, Nat.add_assoc, Nat.reduceAdd]
  omega

/-- What `DecodeCommand` answers for the instruction `i` of a whole header at `p`: the record the engine makes of the
payload, or the error at the payload's first byte (R84). -/
def payloadAnswer (s : State) (l p : Nat) (i : Instr) : Decoded Command :=
  if p + 4 + payloadBytes i ≤ l then .ok (commandRecord s (p + 4) i, p + 4 + payloadBytes i)
  else .error (.unexpectedEnd (p + 4) .command)

theorem payloadAnswer_headerOnly {i : Instr} (hi : payloadBytes i = 0) (hheader : p + 4 ≤ l) :
    payloadAnswer s l p i = .ok (commandRecord s (p + 4) i, p + 4) := by
  rw [payloadAnswer, hi, Nat.add_zero, if_pos hheader]

/-- `Units` checks the payload whole and reads the units as the engine does (R84, R86). -/
theorem unitsFn_eq_payloadAnswer (hc : s.sourceChanged = false) {i : Instr} {w count u : Nat}
    {f : List (BitVec w) → Command} (hlength : count * u = payloadBytes i)
    (hrecord : f (s.units w (p + 4) count u) = commandRecord s (p + 4) i) :
    unitsFn s.source l (p + 4) w count u f = payloadAnswer s l p i := by
  simp only [State.units] at hrecord
  simp only [unitsFn, payloadAnswer, readLE_source hc, hlength, hrecord, gt_iff_lt, ← Nat.not_le, ite_not]

theorem commandFn_unknown (hc : s.sourceChanged = false) (hheader : p + 4 ≤ l)
    (ho : opcodeOf (s.srcByte (p + 3)) = none) :
    commandFn s.source l p = .error (.unknownOpcode (s.srcByte (p + 3)) p .command) := by
  obtain ⟨-, -, hcmd⟩ := header_fields s p
  simp only [opcodeOf_eq_none_iff, opcodeTable, List.map_cons, List.map_nil, List.mem_cons, List.not_mem_nil, or_false,
    not_or, ← BitVec.toNat_inj, BitVec.reduceToNat] at ho
  simp only [commandFn, gt_iff_lt, Nat.not_lt.mpr hheader, readLE_source hc, hcmd, ho, if_false, BitVec.ofNat_toNat,
    BitVec.setWidth_eq]

theorem strowOfUnits_units (s : State) (q : Nat) :
    strowOfUnits (s.units 32 q 4 4) =
      .strow (s.payloadWord q 0) (s.payloadWord q 1) (s.payloadWord q 2) (s.payloadWord q 3) := rfl

/-- With a known opcode, `DecodeCommand` goes on with the instruction that the engine decodes. -/
theorem commandFn_known (hc : s.sourceChanged = false) (hheader : p + 4 ≤ l) (o : Opcode)
    (ho : s.srcByte (p + 3) = o.byte) :
    commandFn s.source l p = payloadAnswer s l p (o.instrOf (s.half p) (s.srcByte (p + 2))) := by
  obtain ⟨himm, hnum, hcmd⟩ := header_fields s p
  rw [ho] at hcmd
  rw [commandFn, if_neg (Nat.not_lt.mpr hheader)]
  simp only [readLE_source hc, himm, hnum, hcmd]
  cases o <;>
    simp only [Opcode.byte, BitVec.reduceToNat, Nat.reduceEqDiff, if_false, if_true, Opcode.instrOf, unpackOf_eq_ofNat,
      field_eq_ofNat, pow_zero, Nat.div_one]
  case nop | stcycl | stmod | flush | mscnt => exact Eq.symm (payloadAnswer_headerOnly rfl hheader)
  case strow => exact unitsFn_eq_payloadAnswer hc rfl (strowOfUnits_units s (p + 4))
  case mpg =>
    rw [← mpgNumOf_toNat, BitVec.ofNat_toNat, BitVec.setWidth_eq]
    exact unitsFn_eq_payloadAnswer hc (Nat.mul_one _) rfl
  case unpackS32 | unpackV2x16 | unpackV4x32 | unpackV4x16 | unpackV4x8 =>
    exact unitsFn_eq_payloadAnswer hc (by simp only [payloadBytes, numEffOf]; omega) rfl

/-- A command's step delivers what `DecodeCommand` returns, a record that ends within the limit, or takes what it
raises. -/
theorem step_of_commandFn (hat : s.AtCommand p l) (hc : s.sourceChanged = false) :
    (∀ c q, commandFn s.source l p = .ok (c, q) →
      (p + 4 ≤ q ∧ q ≤ l) ∧ step s = .next (s.withCommand c q)) ∧
      ∀ e, commandFn s.source l p = .error e → step s = .next (s.raise e) := by
  by_cases hheader : p + 4 ≤ l
  · cases ho : opcodeOf (s.srcByte (p + 3)) with
    | none =>
      rw [commandFn_unknown hc hheader ho]
      refine ⟨nofun, fun e he => ?_⟩
      cases he
      exact step_at_command_unknown hat hheader ho
    | some o =>
      have hop := opcodeOf_eq_some ho
      have ⟨_, hp, hl, _⟩ := hat
      rw [commandFn_known hc hheader o hop, payloadAnswer, step_at_command_known hat hheader o hop,
        exec_command (instrOf_format ..) hp hl hheader]
      split
      · rw [decodedCommand_eq_withCommand hat.phase_eq]
        refine ⟨fun c q hok => ?_, nofun⟩
        rw [Except.ok.injEq, Prod.mk.injEq] at hok
        obtain ⟨rfl, rfl⟩ := hok
        exact ⟨⟨Nat.le_add_right .., by assumption⟩, rfl⟩
      · refine ⟨nofun, fun e he => ?_⟩
        cases he
        rfl
  · rw [commandFn_short (Nat.lt_of_not_le hheader)]
    refine ⟨nofun, fun e he => ?_⟩
    cases he
    exact step_at_command_short hat (Nat.lt_of_not_le hheader)

/-! ### The end of a region -/

theorem stepRegionEnd_eq {op : BitVec 3} {d : Descriptor} {x : Nat} {rest : List Nat} (hp : s.pos = some p)
    (hop : s.op = some op) (hd : s.desc = some d) (hsave : s.limSave = x :: rest) :
    stepRegionEnd s =
      if op.toNat = 2 then
        .next { s with lim := some x, limSave := rest, result := some (.tag ⟨d, s.cmds⟩, p), phase := .done }
      else
        .next { s with
          lim := some x, limSave := rest, tags := s.tags ++ [⟨d, s.cmds⟩]
          phase := .busy (afterTag (chainClass d.id)) } := by
  simp only [stepRegionEnd, hp, hop, hd, need_some, popLimit_cons hsave, State.finish]

theorem busy_afterTag (c : ChainClass) :
    Phase.busy (afterTag c) = if c = .terminate then .busy .pad else .busy .ploop := by
  cases c <;> rfl

end

/-- Settles O24: both phases decode the descriptor at the cursor. -/
theorem descriptorPhasesRunDecodeDescriptor : Obligations.DescriptorPhasesRunDecodeDescriptor := by
  intro s p l hr hc hp hl
  constructor
  · intro hph
    obtain ⟨hok, herr⟩ := step_of_descriptorFn ⟨hr, hp, hl, .inl hph⟩ hc
    refine ⟨fun d q hd => ?_, herr⟩
    obtain ⟨⟨rfl, -⟩, hstep⟩ := hok d q hd
    rw [hstep, State.withDescriptor, if_pos hph]
  · intro hph
    obtain ⟨hok, herr⟩ := step_of_descriptorFn ⟨hr, hp, hl, .inr hph⟩ hc
    refine ⟨fun d q hd => ?_, herr⟩
    obtain ⟨⟨rfl, -⟩, hstep⟩ := hok d q hd
    rw [hstep, State.withDescriptor, if_neg (by simp [hph])]

/-- Settles O33: the phase decodes the command at the cursor. -/
theorem commandPhaseRunsDecodeCommand : Obligations.CommandPhaseRunsDecodeCommand := by
  intro s p l hr hc hp hl hph
  obtain ⟨hok, herr⟩ := step_of_commandFn ⟨hr, hp, hl, .inl hph⟩ hc
  refine ⟨fun c q hcq => ?_, herr⟩
  obtain ⟨-, hstep⟩ := hok c q hcq
  rw [hstep, State.withCommand, if_pos hph]

/-- Settles O34: before the region's end the command at the cursor is decoded, and at it the limit is popped and the
tag delivered. -/
theorem regionPhaseDecodesThenCloses : Obligations.RegionPhaseDecodesThenCloses := by
  intro s p l e hr hc hp hl hph he
  constructor
  · intro hlt
    obtain ⟨hok, herr⟩ := step_of_commandFn ⟨hr, hp, hl, .inr ⟨hph, e, he, hlt⟩⟩ hc
    refine ⟨fun c q hcq => ?_, herr⟩
    obtain ⟨-, hstep⟩ := hok c q hcq
    rw [hstep, State.withCommand, if_neg (by simp [hph])]
  · intro hle op d l' rest hop hd hsave
    rw [step_at_region_end hr hph hp he hle, stepRegionEnd_eq hp hop hd hsave, busy_afterTag]
    exact ⟨fun htag => if_pos htag, fun hpacket => if_neg hpacket⟩

/-! ## Runs of a request (R131, R132)

A run is counted from its end: a state that ends within some steps with a response. The bound of a state with
the cursor at `p` is a constant of its phase and `(L - p)/2`: an item of 4 bytes pays for two steps, so a
descriptor pays for the four steps of its tag that read no command. -/

/-- `k` steps of a running request lead from one state to the other. -/
inductive RunsTo : State → Nat → State → Prop where
  | refl (s : State) : RunsTo s 0 s
  | head {s t u : State} {k : Nat} (hrun : s.Running) (hstep : step s = .next t) (h : RunsTo t k u) : RunsTo s (k + 1) u

theorem run_succ {M : Host.Core} {s t : M.State} (hstep : M.step s = .next t) (k : Nat) :
    M.run (k + 1) s = M.run k t := by
  simp only [Host.Core.run, hstep]

/-- What `RunsTo` says of the machine's own run. -/
theorem RunsTo.run {s t : State} {k : Nat} (h : RunsTo s k t) :
    Host.Core.run Sys2Proof.core k s = .next t ∧
      ∀ j < k, ∃ u : State, Host.Core.run Sys2Proof.core j s = .next u ∧ u.Running := by
  induction h with
  | refl s => exact ⟨rfl, fun j hj => absurd hj (Nat.not_lt_zero j)⟩
  | @head s t u k hrun hstep h ih =>
    obtain ⟨hlast, hbefore⟩ := ih
    refine ⟨(run_succ (M := Sys2Proof.core) hstep k).trans hlast, fun j hj => ?_⟩
    cases j with
    | zero => exact ⟨s, rfl, hrun⟩
    | succ j =>
      rw [run_succ (M := Sys2Proof.core) hstep]
      exact hbefore j (Nat.lt_of_succ_lt_succ hj)

/-- The request running in `s` ends with the response `a` after at most `n` steps. -/
def EndsWithin (s : State) (n : Nat) (a : Response) : Prop :=
  ∃ k t, k ≤ n ∧ RunsTo s k t ∧ t.response = some a

section
variable {s t : State} {sub : SubPhase} {n m : Nat} {a : Response}

theorem EndsWithin.here (h : s.response = some a) : EndsWithin s n a :=
  ⟨0, s, Nat.zero_le n, .refl s, h⟩

theorem EndsWithin.of_step (hph : s.phase = .busy sub) (hstep : step s = .next t) (h : EndsWithin t n a)
    (hm : n + 1 ≤ m) : EndsWithin s m a := by
  obtain ⟨k, u, hk, hruns, hu⟩ := h
  exact ⟨k + 1, u, by omega, .head ⟨sub, hph⟩ hstep hruns, hu⟩

theorem EndsWithin.raise {e : DecodeError} (hph : s.phase = .busy sub) (hstep : step s = .next (s.raise e))
    (hm : 1 ≤ m) : EndsWithin s m (.err e) :=
  .of_step (n := 0) hph hstep (.here rfl) hm

theorem EndsWithin.mono (h : EndsWithin s n a) (hm : n ≤ m) : EndsWithin s m a := by
  obtain ⟨k, u, hk, hruns, hu⟩ := h
  exact ⟨k, u, hk.trans hm, hruns, hu⟩

end

/-- The request being served is `r`, over a source that nobody changes, and no reset is asserted. -/
structure State.Serves (s : State) (r : Request) : Prop where
  reset : s.resetLine = false
  unchanged : s.sourceChanged = false
  req : s.req = some r
  op : s.op = some r.op

theorem State.Serves.source {s : State} {r : Request} (h : s.Serves r) : s.source = r.src := by
  simp only [State.source, h.req]

theorem State.Serves.of_served_eq {s t : State} {r : Request} (h : s.Serves r) (ht : t.served = s.served) :
    t.Serves r := by
  obtain ⟨hop, hreq, -, hreset, hchanged, -⟩ := State.served_eq_iff.mp ht
  exact ⟨hreset.trans h.reset, hchanged.trans h.unchanged, hreq.trans h.req, hop.trans h.op⟩

theorem State.accept_serves {s : State} (hr : s.resetLine = false) (r : Request) : (s.accept r).Serves r :=
  ⟨hr, rfl, rfl, rfl⟩

/-! ### A tag -/

/-- The first position after the region of the tag whose descriptor `d` stands at `p`. -/
def regionEnd (p : Nat) (d : Descriptor) : Nat := p + 8 + 16 * d.qwordCount.toNat

/-- Inside the tag that the descriptor `d` at `p` opened in `s`, where the limit was `l`: the commands `cs` have been
decoded, and the cursor is at `q`. -/
def State.inTag (s : State) (p l : Nat) (d : Descriptor) (cs : List Command) (q : Nat) : State :=
  { s with
    tagStart := some p, desc := some d, tagEnd := some (regionEnd p d), cmds := cs
    pos := some q, limSave := l :: s.limSave, lim := some (min l (regionEnd p d)), phase := .busy .tloop }

section
variable {s : State} {r : Request} {p l : Nat}

theorem State.Serves.inTag (hs : s.Serves r) (p l : Nat) (d : Descriptor) (cs : List Command) (q : Nat) :
    (s.inTag p l d cs q).Serves r := hs.of_served_eq rfl

/-- The loop of `DecodeTag` runs as the steps of the region: it leaves the engine at the region's end, or fails. -/
theorem commandLoop_runs (hs : s.Serves r) (d : Descriptor) (hlen : l ≤ r.len) (fuel : Nat) (cs : List Command)
    (q : Nat) (hfuel : regionEnd p d ≤ q + fuel) (hq : q ≤ l) :
    (∀ cs' q', commandLoop r.src l (regionEnd p d) fuel q cs = .ok (cs', q') →
      (q ≤ q' ∧ q' ≤ l ∧ regionEnd p d ≤ q') ∧
        ∀ n a, EndsWithin (s.inTag p l d cs' q') (n + (r.len - q') / 2) a →
          EndsWithin (s.inTag p l d cs q) (n + (r.len - q) / 2) a) ∧
      ∀ e, commandLoop r.src l (regionEnd p d) fuel q cs = .error e →
        EndsWithin (s.inTag p l d cs q) (1 + (r.len - q) / 2) (.err e) := by
  induction fuel generalizing cs q with
  | zero =>
    refine ⟨fun cs' q' hok => ?_, nofun⟩
    cases hok
    exact ⟨⟨le_rfl, hq, hfuel⟩, fun n a h => h⟩
  | succ fuel ih =>
    rw [commandLoop]
    by_cases hlt : q < regionEnd p d
    · rw [if_pos hlt]
      have hs' := hs.inTag p l d cs q
      have hat : (s.inTag p l d cs q).AtCommand q (min l (regionEnd p d)) :=
        ⟨hs'.reset, rfl, rfl, .inr ⟨rfl, _, rfl, hlt⟩⟩
      obtain ⟨hok, herr⟩ := step_of_commandFn hat hs'.unchanged
      rw [hs'.source] at hok herr
      cases hc : commandFn r.src (min l (regionEnd p d)) q with
      | error e =>
        refine ⟨nofun, fun e' he => ?_⟩
        cases he
        exact .raise rfl (herr e hc) (by omega)
      | ok v =>
        obtain ⟨c, q₁⟩ := v
        obtain ⟨⟨hlo, hhi⟩, hstep⟩ := hok c q₁ hc
        obtain ⟨ihok, iherr⟩ := ih (cs ++ [c]) q₁ (by omega) (by omega)
        have hstep : step (s.inTag p l d cs q) = .next (s.inTag p l d (cs ++ [c]) q₁) := hstep
        refine ⟨fun cs' q' h => ?_, fun e he => .of_step rfl hstep (iherr e he) (by omega)⟩
        obtain ⟨⟨hle, hlim, hend⟩, hrun⟩ := ihok cs' q' h
        exact ⟨⟨by omega, hlim, hend⟩, fun n a h => .of_step rfl hstep (hrun n a h) (by omega)⟩
    · rw [if_neg hlt]
      refine ⟨fun cs' q' hok => ?_, nofun⟩
      cases hok
      exact ⟨⟨le_rfl, hq, Nat.le_of_not_lt hlt⟩, fun n a h => h⟩

/-- `DecodeTag` runs as a descriptor's step and the steps of its region. The 8 bytes of the descriptor pay for four
steps, so three are left over at the region's end. -/
theorem tagFn_runs (hs : s.Serves r) (hph : s.phase = .busy .tdesc) (hp : s.pos = some p) (hl : s.lim = some l)
    (hlen : l ≤ r.len) :
    (∀ g q, tagFn r.src l p = .ok (g, q) →
      (p + 8 ≤ q ∧ q ≤ l ∧ regionEnd p g.descriptor ≤ q) ∧
        ∀ n a, EndsWithin (s.inTag p l g.descriptor g.commands q) (n + 3 + (r.len - q) / 2) a →
          EndsWithin s (n + (r.len - p) / 2) a) ∧
      ∀ e, tagFn r.src l p = .error e → EndsWithin s (1 + (r.len - p) / 2) (.err e) := by
  obtain ⟨hok, herr⟩ := step_of_descriptorFn ⟨hs.reset, hp, hl, .inr hph⟩ hs.unchanged
  rw [hs.source] at hok herr
  rw [tagFn]
  cases hd : descriptorFn r.src l p with
  | error e =>
    refine ⟨nofun, fun e' he => ?_⟩
    cases he
    exact .raise hph (herr e hd) (by omega)
  | ok v =>
    obtain ⟨d, q₀⟩ := v
    obtain ⟨⟨rfl, hfits⟩, hstep⟩ := hok d q₀ hd
    rw [State.withDescriptor, if_neg (by simp [hph])] at hstep
    have hstep : step s = .next (s.inTag p l d [] (p + 8)) := hstep
    have hregion : p + 8 + d.qwordCount.toNat * 16 = regionEnd p d := by rw [regionEnd, Nat.mul_comm]
    simp only [hregion]
    obtain ⟨lok, lerr⟩ := commandLoop_runs (p := p) hs d hlen (regionEnd p d - (p + 8)) [] (p + 8) (by omega) hfits
    cases hloop : commandLoop r.src l (regionEnd p d) (regionEnd p d - (p + 8)) (p + 8) [] with
    | error e =>
      refine ⟨nofun, fun e' he => ?_⟩
      cases he
      exact .of_step hph hstep (lerr e hloop) (by omega)
    | ok v =>
      obtain ⟨cs, q⟩ := v
      refine ⟨fun g q' h => ?_, nofun⟩
      cases h
      obtain ⟨hbounds, hrun⟩ := lok cs q hloop
      exact ⟨hbounds, fun n a h => .of_step hph hstep (hrun (n + 3) a h) (by omega)⟩

/-- At the region's end the tag of a `TAG` request is the response. -/
theorem inTag_answers_tag (hs : s.Serves r) (htag : r.op.toNat = 2) {d : Descriptor} {cs : List Command} {q : Nat}
    (hend : regionEnd p d ≤ q) : EndsWithin (s.inTag p l d cs q) 1 (.ok (.tag ⟨d, cs⟩) q) := by
  have hs' := hs.inTag p l d cs q
  have hstep := (step_at_region_end hs'.reset rfl rfl rfl hend).trans (stepRegionEnd_eq rfl hs'.op rfl rfl)
  rw [if_pos htag] at hstep
  exact .of_step (n := 0) rfl hstep (.here rfl) le_rfl

/-! ### A packet -/

/-- A packet request with its window's end at `w` stands in the phase `sub` with the cursor at `p`: the tags `gs` have
been decoded. -/
structure State.PacketAt (s : State) (r : Request) (sub : SubPhase) (p w : Nat) (gs : List Tag) : Prop where
  serves : s.Serves r
  packet : r.op.toNat ≠ 2
  phase : s.phase = .busy sub
  pos : s.pos = some p
  lim : s.lim = some (min r.len w)
  limSave : s.limSave = [r.len]
  winEnd : s.winEnd = some w
  tags : s.tags = gs

/-- The end of a tag in a packet: the window's limit is in force again, and the tag's class says what follows. -/
theorem State.PacketAt.step_tag_end {w : Nat} {gs : List Tag} (h : s.PacketAt r .tdesc p w gs) {g : Tag} {q : Nat}
    (hend : regionEnd p g.descriptor ≤ q) :
    ∃ t, step (s.inTag p (min r.len w) g.descriptor g.commands q) = .next t ∧
      t.PacketAt r (afterTag (chainClass g.descriptor.id)) q w (gs ++ [g]) := by
  have hs' := h.serves.inTag p (min r.len w) g.descriptor g.commands q
  have hstep := (step_at_region_end hs'.reset rfl rfl rfl hend).trans (stepRegionEnd_eq rfl hs'.op rfl rfl)
  rw [if_neg h.packet] at hstep
  exact ⟨_, hstep, h.serves.of_served_eq rfl, h.packet, rfl, rfl, rfl, h.limSave, h.winEnd,
    congrArg (· ++ [g]) h.tags⟩

/-- A step that moves only the cursor and the phase of a packet request. -/
theorem State.PacketAt.move {sub sub' : SubPhase} {q w : Nat} {gs : List Tag} (h : s.PacketAt r sub p w gs) :
    State.PacketAt { s with pos := some q, phase := .busy sub' } r sub' q w gs :=
  ⟨h.serves.of_served_eq rfl, h.packet, rfl, rfl, h.lim, h.limSave, h.winEnd, h.tags⟩

/-- At the window's end the packet is the response. -/
theorem State.PacketAt.answers_packet {w : Nat} {gs : List Tag} (h : s.PacketAt r .ploop p w gs) (hend : w ≤ p) :
    EndsWithin s 1 (.ok (.packet gs) p) := by
  obtain ⟨-, hdone⟩ := windowCheckEndsThePacket s p w h.serves.reset h.phase h.pos h.winEnd
  exact .of_step (n := 0) h.phase (hdone hend r.len [] h.limSave) (.here (by rw [← h.tags]; rfl)) le_rfl

/-- What follows a tag of a packet: the next window check, at the cursor or after the padding, or the error of a
padding that is cut off (R114, R115). -/
theorem State.PacketAt.after_tag {w : Nat} {gs : List Tag} {id : TagId}
    (h : s.PacketAt r (afterTag (chainClass id)) p w gs) (hle : p ≤ w) :
    (chainClass id = .continue_ ∧ s.PacketAt r .ploop p w gs) ∨
    (chainClass id = .terminate ∧ w ≤ min r.len w ∧
      ∃ t, step s = .next t ∧ t.PacketAt r .ploop w w gs) ∨
    (chainClass id = .terminate ∧ min r.len w < w ∧ step s = .next (s.raise (.unexpectedEnd p .packet))) := by
  cases hclass : chainClass id with
  | continue_ =>
    rw [hclass] at h
    exact .inl ⟨rfl, h⟩
  | terminate =>
    rw [hclass] at h
    obtain ⟨hskip, hshort⟩ :=
      paddingSkipsToTheWindowEnd s p (min r.len w) w h.serves.reset h.phase h.pos h.lim h.winEnd hle
    by_cases hfits : w ≤ min r.len w
    · exact .inr (.inl ⟨rfl, hfits, _, hskip hfits, h.move⟩)
    · exact .inr (.inr ⟨rfl, Nat.lt_of_not_le hfits, hshort (Nat.lt_of_not_le hfits)⟩)

/-- The loop of `DecodePacket` runs as the steps of the window, tag by tag. -/
theorem tagLoop_runs (w fuel : Nat) (gs : List Tag) (h : s.PacketAt r .ploop p w gs) (hfuel : w ≤ p + fuel)
    (hp : p ≤ min r.len w) :
    EndsWithin s (2 + (r.len - p) / 2) (toResponse .packet (tagLoop r.src (min r.len w) w fuel p gs)) := by
  induction fuel generalizing s p gs with
  | zero => exact (h.answers_packet hfuel).mono (by omega)
  | succ fuel ih =>
    rw [tagLoop]
    by_cases hlt : p < w
    · rw [if_pos hlt]
      obtain ⟨hcheck, -⟩ := windowCheckEndsThePacket s p w h.serves.reset h.phase h.pos h.winEnd
      refine .of_step (n := 1 + (r.len - p) / 2) h.phase (hcheck hlt) ?_ (by omega)
      have ht : State.PacketAt { s with phase := .busy .tdesc } r .tdesc p w gs :=
        ⟨h.serves.of_served_eq rfl, h.packet, rfl, h.pos, h.lim, h.limSave, h.winEnd, h.tags⟩
      obtain ⟨hok, herr⟩ := tagFn_runs ht.serves ht.phase ht.pos ht.lim (Nat.min_le_left ..)
      cases htag : tagFn r.src (min r.len w) p with
      | error e => exact herr e htag
      | ok v =>
        obtain ⟨g, q⟩ := v
        obtain ⟨⟨hlo, hhi, hend⟩, hrun⟩ := hok g q htag
        apply hrun 1
        obtain ⟨u, hclose, hu⟩ := ht.step_tag_end hend
        refine .of_step (n := 3 + (r.len - q) / 2) rfl hclose ?_ (by omega)
        have hskip : q + (w - q) = w := by omega
        obtain ⟨hclass, hu⟩ | ⟨hclass, hfits, x, hstep, hx⟩ | ⟨hclass, hshort, hstep⟩ := hu.after_tag (by omega)
        · simp only [hclass, reduceCtorEq, if_false]
          exact (ih _ hu (by omega) hhi).mono (by omega)
        · simp only [hclass, if_true, hskip, gt_iff_lt, Nat.not_lt.mpr hfits, if_false]
          exact .of_step hu.phase hstep (ih _ hx (by omega) hfits) (by omega)
        · simp only [hclass, if_true, hskip, gt_iff_lt, hshort]
          exact .raise hu.phase hstep (by omega)
    · rw [if_neg hlt]
      exact (h.answers_packet (Nat.le_of_not_lt hlt)).mono (by omega)

/-- Either framing begins the loop of the window with no tag. -/
theorem openWindow_packetAt {start w : Nat} (hs : s.Serves r) (hpacket : r.op.toNat ≠ 2) (hsave : s.limSave = [])
    (htags : s.tags = []) : (openWindow start w r.len s).PacketAt r .ploop start w [] :=
  ⟨hs.of_served_eq rfl, hpacket, rfl, rfl, rfl, congrArg _ hsave, rfl, htags⟩

end

/-! ### A request -/

section
variable {s : State} {r : Request}

theorem windowFn_runs {start w : Nat} (hs : s.Serves r) (hpacket : r.op.toNat ≠ 2) (hsave : s.limSave = [])
    (htags : s.tags = []) (hstart : start ≤ r.len) (hw : start ≤ w) :
    EndsWithin (openWindow start w r.len s) (2 + (r.len - start) / 2)
      (toResponse .packet (windowFn r.src r.len start w)) :=
  tagLoop_runs w (w - start) [] (openWindow_packetAt hs hpacket hsave htags) (by omega) (by omega)

theorem descriptor_request_runs (hr : s.resetLine = false) (hop : r.op.toNat = 0) :
    EndsWithin (s.accept r) 1 (toResponse .descriptor (descriptorFn r.src r.len r.p0)) := by
  have hph : (s.accept r).phase = .busy .desc1 := by simp [startPhase, hop]
  obtain ⟨hphase, -⟩ := descriptorPhasesRunDecodeDescriptor (s.accept r) r.p0 r.len hr rfl rfl rfl
  obtain ⟨hok, herr⟩ := hphase hph
  rw [State.accept_source] at hok herr
  cases h : descriptorFn r.src r.len r.p0 with
  | error e => exact .raise hph (herr e h) le_rfl
  | ok v => exact .of_step (n := 0) hph (hok v.1 v.2 h) (.here rfl) le_rfl

theorem command_request_runs (hr : s.resetLine = false) (hop : r.op.toNat = 1) :
    EndsWithin (s.accept r) 1 (toResponse .command (commandFn r.src r.len r.p0)) := by
  have hph : (s.accept r).phase = .busy .cmd1 := by simp [startPhase, hop]
  obtain ⟨hok, herr⟩ := commandPhaseRunsDecodeCommand (s.accept r) r.p0 r.len hr rfl rfl rfl hph
  rw [State.accept_source] at hok herr
  cases h : commandFn r.src r.len r.p0 with
  | error e => exact .raise hph (herr e h) le_rfl
  | ok v => exact .of_step (n := 0) hph (hok v.1 v.2 h) (.here rfl) le_rfl

theorem tag_request_runs (hr : s.resetLine = false) (hop : r.op.toNat = 2) :
    EndsWithin (s.accept r) (1 + (r.len - r.p0) / 2) (toResponse .tag (tagFn r.src r.len r.p0)) := by
  have hph : (s.accept r).phase = .busy .tdesc := by simp [startPhase, hop]
  have hs := State.accept_serves hr r
  obtain ⟨hok, herr⟩ := tagFn_runs hs hph rfl rfl le_rfl
  cases h : tagFn r.src r.len r.p0 with
  | error e => exact herr e h
  | ok v =>
    obtain ⟨⟨d, cs⟩, q⟩ := v
    obtain ⟨⟨-, -, hend⟩, hrun⟩ := hok ⟨d, cs⟩ q h
    exact hrun 1 _ ((inTag_answers_tag hs hop hend).mono (by omega))

theorem accept_frame (hop : r.op.toNat = 3 ∨ r.op.toNat = 4) : (s.accept r).phase = .busy .frame := by
  obtain hop | hop := hop <;> simp [startPhase, hop]

theorem external_request_runs (hr : s.resetLine = false) (hop : r.op.toNat = 3) (hle : r.p0 ≤ r.len) :
    EndsWithin (s.accept r) (3 + (r.len - r.p0) / 2)
      (toResponse .packet (windowFn r.src r.len r.p0 (r.p0 + r.n))) := by
  have hph : (s.accept r).phase = .busy .frame := accept_frame (.inl hop)
  have hs := State.accept_serves hr r
  have hstep := (step_frame hs.reset hph).trans (stepFrame_external hs.op hop rfl rfl hs.req)
  exact .of_step hph hstep
    (windowFn_runs hs (by omega) rfl rfl hle (Nat.le_add_right ..)) (by omega)

theorem self_request_runs (hr : s.resetLine = false) (hop : r.op.toNat = 4) :
    EndsWithin (s.accept r) (3 + (r.len - r.p0) / 2) (toResponse .packet (selfPacketFn r.src r.len r.p0)) := by
  have hph : (s.accept r).phase = .busy .frame := accept_frame (.inr hop)
  have hs := State.accept_serves hr r
  have hstep := (step_frame hs.reset hph).trans (stepFrame_self hs.op hop rfl rfl)
  rw [selfPacketFn]
  by_cases hfits : r.p0 + 4 ≤ r.len
  · rw [if_neg (Nat.not_lt.mpr hfits)]
    rw [if_pos hfits, ← readLE_source hs.unchanged, hs.source, Nat.mul_comm 16] at hstep
    exact .of_step hph hstep
      (windowFn_runs hs (by omega) rfl rfl hfits (Nat.le_add_right ..)) (by omega)
  · rw [if_pos (Nat.lt_of_not_le hfits)]
    rw [if_neg hfits] at hstep
    exact .raise hph hstep (by omega)

/-- Every acceptable request ends with what its entry point returns, within the bound of R132. -/
theorem request_runs (hr : s.resetLine = false) (hop : r.op.toNat ≤ 4) (hle : r.p0 ≤ r.len) :
    EndsWithin (s.accept r) (3 + (r.len - r.p0) / 2) (requestFn r) := by
  have hcodes : r.op.toNat = 0 ∨ r.op.toNat = 1 ∨ r.op.toNat = 2 ∨ r.op.toNat = 3 ∨ r.op.toNat = 4 := by omega
  obtain h | h | h | h | h := hcodes <;> simp only [requestFn, h]
  · exact (descriptor_request_runs hr h).mono (by omega)
  · exact (command_request_runs hr h).mono (by omega)
  · exact (tag_request_runs hr h).mono (by omega)
  · exact external_request_runs hr h hle
  · exact self_request_runs hr h

end

/-- Settles O51: each entry point's function runs as the steps of its phases, within their bound. -/
theorem machineAgreesWithTheFunctions : Obligations.MachineAgreesWithTheFunctions := by
  intro s r hr hop hle
  obtain ⟨k, t, hk, hruns, ht⟩ := request_runs hr hop hle
  obtain ⟨hrun, hbefore⟩ := hruns.run
  exact ⟨k, t, hk, hrun, ht, hbefore⟩

end Sys2Proof.Machine

/-! # Proofs of the family spec/60_exceptions.md

The error kinds and layers (R134, R136): each reading operation raises records of its own layer, the operations
that read nothing raise none, and the layer of an error in a phase follows from which operation the phase is. -/

namespace Sys2Proof.Machine

/-! ## The codes of the kinds (R134) -/

theorem errorCode_eq_one_or_two (e : DecodeError) : errorCode (some e) = 1 ∨ errorCode (some e) = 2 := by
  cases e with
  | unexpectedEnd o l => exact .inl rfl
  | unknownOpcode b o l => exact .inr rfl

/-- Settles O43: each code is the definition's at its kind, and a record is of one of the two kinds. -/
theorem errorCodes : Obligations.ErrorCodes :=
  ⟨rfl, fun _ _ => rfl, fun _ _ _ => rfl, errorCode_eq_one_or_two⟩

/-! ## The layer of each operation (R136) -/

theorem DecodeError.layer_eq_iff (e : DecodeError) (l : Layer) :
    e.layer = l ↔ (∃ o, e = .unexpectedEnd o l) ∨ ∃ b o, e = .unknownOpcode b o l := by
  cases e <;> simp [DecodeError.layer]

section
variable {s t : State} {e : DecodeError}

/-- A command's fetch raises in layer `Command`, at its header, its opcode or its payload alike. -/
theorem fetch_command_error_layer (h : fetch .vifcode exec s = .next t) (hph : t.phase = .error)
    (he : t.err = some e) : e.layer = .command := by
  obtain ⟨p, l, hp, hl, -⟩ := fetch_eq_next h
  obtain ⟨e', hlayer, -, rfl⟩ | ⟨c, -, -, hd⟩ := fetch_command_eq_next hp hl h
  · cases he
    exact hlayer
  · exact absurd hph (decodedCommand_not_error hd)

theorem fetch_descriptor_error (h : fetch .dmatag exec s = .next t) (hph : t.phase = .error) (he : t.err = some e) :
    ∃ o, e = .unexpectedEnd o .descriptor := by
  obtain ⟨p, l, hp, hl, -⟩ := fetch_eq_next h
  obtain rfl | ⟨d, -, hd⟩ := fetch_descriptor_eq_next hp hl h
  · cases he
    exact ⟨p, rfl⟩
  · exact absurd hph (decodedDescriptor_not_error hd)

theorem stepFrame_error (h : stepFrame s = .next t) (hph : t.phase = .error) (he : t.err = some e) :
    ∃ o, e = .unexpectedEnd o .packet := by
  obtain ⟨op, p, l, -, -, -, ⟨-, r, -, rfl⟩ | ⟨-, -, rfl⟩ | ⟨-, -, rfl⟩⟩ := stepFrame_eq_next h
  · cases hph
  · cases hph
  · cases he
    exact ⟨p, rfl⟩

theorem stepPadding_error (h : stepPadding s = .next t) (hph : t.phase = .error) (he : t.err = some e) :
    ∃ o, e = .unexpectedEnd o .packet := by
  obtain ⟨p, l, w, -, -, -, ⟨-, rfl⟩ | ⟨-, rfl⟩⟩ := stepPadding_eq_next h
  · cases hph
  · cases he
    exact ⟨p, rfl⟩

/-- The window check reads nothing (R125). -/
theorem stepWindow_not_error (h : stepWindow s = .next t) : t.phase ≠ .error := by
  obtain ⟨p, w, -, -, ⟨-, rfl⟩ | ⟨-, l, rest, -, rfl⟩⟩ := stepWindow_eq_next h
  · simp
  · simp

/-- The end of a region reads nothing: the Tag Decoder issues no read of its own (R102). -/
theorem stepRegionEnd_not_error (h : stepRegionEnd s = .next t) : t.phase ≠ .error := by
  obtain ⟨p, op, d, l, rest, -, -, -, -, ⟨-, rfl⟩ | ⟨-, rfl⟩⟩ := stepRegionEnd_eq_next h
  · simp
  · simp

theorem stepRegion_error_layer (h : stepRegion exec s = .next t) (hph : t.phase = .error) (he : t.err = some e) :
    e.layer = .command := by
  obtain ⟨p, hp, hstep⟩ := need_eq_next h
  obtain ⟨w, hw, -⟩ := need_eq_next hstep
  rw [stepRegion_eq hp hw] at h
  split at h
  · exact fetch_command_error_layer h hph he
  · exact absurd hph (stepRegionEnd_not_error h)

end

/-- Settles O42: the phase says which operation the step is, and the operation says the layer. -/
theorem errorLayerIsTheReadersLayer : Obligations.ErrorLayerIsTheReadersLayer := by
  refine ⟨⟨rfl, rfl, rfl, rfl⟩, fun s t e hr hstep hph he => ⟨?descriptor, ?command, ?packet, ?window⟩⟩
  case descriptor =>
    rintro (hs | hs)
    · exact fetch_descriptor_error ((step_desc1 hr hs).symm.trans hstep) hph he
    · exact fetch_descriptor_error ((step_tdesc hr hs).symm.trans hstep) hph he
  case command =>
    rw [← DecodeError.layer_eq_iff]
    rintro (hs | hs)
    · exact fetch_command_error_layer ((step_cmd1 hr hs).symm.trans hstep) hph he
    · exact stepRegion_error_layer ((step_tloop hr hs).symm.trans hstep) hph he
  case packet =>
    rintro (hs | hs)
    · exact stepFrame_error ((step_frame hr hs).symm.trans hstep) hph he
    · exact stepPadding_error ((step_pad hr hs).symm.trans hstep) hph he
  case window =>
    intro hs
    exact stepWindow_not_error ((step_ploop hr hs).symm.trans hstep) hph

end Sys2Proof.Machine

/-! # Proofs of the family spec/70_reset_and_hazards.md

Reset (R150), and what passes between requests: nothing but the requests that wait and the inputs (R152), no
request in `BUSY` (R155), and the response until the next acceptance or reset (R156). -/

namespace Sys2Proof.Machine

/-! ## Reset (R150) -/

theorem assertReset_cleared (s : State) : s.assertReset.Cleared := by
  constructor <;> rfl

/-- Power-up is reset asserted with nothing waiting. -/
theorem assertReset_reset : State.reset.assertReset = State.reset := rfl

theorem reset_cleared : State.reset.Cleared :=
  assertReset_reset ▸ assertReset_cleared State.reset

/-- Settles O1: wherever reset is asserted the step is `State.assertReset`, and it clears every register. -/
theorem resetClearsTheEngineAtAnyTime : Obligations.ResetClearsTheEngineAtAnyTime :=
  ⟨⟨rfl, reset_cleared⟩, fun s hr => ⟨s.assertReset, step_of_reset hr, rfl, assertReset_cleared s, rfl⟩⟩

/-- Settles O44: after reset the engine is idle and cleared, and no request waits. -/
theorem invariantHoldsAtReset : Obligations.InvariantHoldsAtReset :=
  .of_cleared (List.forall_mem_nil _) rfl reset_cleared

/-! ## Waiting requests (R155) -/

/-- Settles O3: a running request keeps what is served and what waits; a held response does not delay the first
waiting request. -/
theorem requestsWaitWhileBusy : Obligations.RequestsWaitWhileBusy := by
  constructor
  · intro s t hr hrun hstep
    obtain ⟨-, hreq, hrequests, -⟩ := State.served_eq_iff.mp (step_keeps_served_of_running hr hrun hstep)
    exact ⟨hrequests, hreq⟩
  · intro s r rest hr hph hlist hop hle
    exact ⟨_, step_accepts hr (.inr hph) hlist ⟨hop, hle⟩, rfl, ⟨_, rfl⟩, rfl⟩

/-! ## Independence of requests (R152) -/

/-- Acceptance reads nothing of the state but the waiting requests, the reset input and the model's counter. -/
theorem accept_eq_of_inputs_eq {s₁ s₂ : State} (r : Request) (hrequests : s₁.requests = s₂.requests)
    (hreset : s₁.resetLine = s₂.resetLine) :
    s₁.accept r = { s₂.accept r with changeEpoch := (s₁.accept r).changeEpoch } := by
  simp only [State.accept, hrequests, hreset]

/-- Settles O6: both engines answer `State.accept` of the one request, which writes every register. -/
theorem nothingCarriesBetweenRequests : Obligations.NothingCarriesBetweenRequests := by
  intro s₁ s₂ t₁ t₂ r rest hrest₁ hrest₂ hr₁ hr₂ hlist₁ hlist₂ hop hle hstep₁ hstep₂
  rw [step_accepts hr₁ hrest₁ hlist₁ ⟨hop, hle⟩] at hstep₁
  rw [step_accepts hr₂ hrest₂ hlist₂ ⟨hop, hle⟩] at hstep₂
  cases hstep₁
  cases hstep₂
  exact accept_eq_of_inputs_eq r rfl (hr₁.trans hr₂.symm)

/-! ## The response held (R156)

A step of a running request goes on or ends with a response: one lemma per operation. -/

/-- The request runs on, or its response can be read. -/
def State.RunsOrResponds (t : State) : Prop := t.Running ∨ t.response.isSome

section
variable {s t : State}

theorem State.RunsOrResponds.of_busy {sub : SubPhase} (hph : t.phase = .busy sub) : t.RunsOrResponds := .inl ⟨sub, hph⟩

theorem State.RunsOrResponds.of_done {v : Entity} {q : Nat} (hph : t.phase = .done) (hres : t.result = some (v, q)) :
    t.RunsOrResponds := by
  refine .inr ?_
  simp only [State.response, hph, hres, Option.map_some, Option.isSome_some]

theorem raise_runsOrResponds (s : State) (e : DecodeError) : (s.raise e).RunsOrResponds := .inr rfl

theorem decodedCommand_runsOrResponds {c : Command} {q : Nat} (h : decodedCommand c q s = .next t) :
    t.RunsOrResponds := by
  obtain ⟨-, rfl⟩ | ⟨hph, rfl⟩ := decodedCommand_eq_next h
  · exact .of_done rfl rfl
  · exact .of_busy hph

theorem decodedDescriptor_runsOrResponds {d : Descriptor} (h : decodedDescriptor d s = .next t) :
    t.RunsOrResponds := by
  obtain ⟨p, -, ⟨-, rfl⟩ | ⟨-, l, -, rfl⟩⟩ := decodedDescriptor_eq_next h
  · exact .of_done rfl rfl
  · exact .of_busy rfl

theorem exec_runsOrResponds {i : Instr} (h : exec i s = .next t) : t.RunsOrResponds := by
  cases hf : i.format with
  | vifcode =>
    obtain ⟨p, -, hd | rfl⟩ := exec_command_eq_next hf h
    · exact decodedCommand_runsOrResponds hd
    · exact raise_runsOrResponds s _
  | dmatag =>
    obtain ⟨d, hd⟩ := tagRecord_isSome hf
    rw [exec_of_tagRecord hd] at h
    exact decodedDescriptor_runsOrResponds h

theorem fetch_runsOrResponds {f : Format} (h : fetch f exec s = .next t) : t.RunsOrResponds := by
  obtain ⟨p, l, -, -, ⟨-, rfl⟩ | ⟨-, e, -, rfl⟩ | ⟨-, i, rest, -, -, -, hrun⟩⟩ := fetch_eq_next h
  · exact raise_runsOrResponds s _
  · exact raise_runsOrResponds s _
  · exact exec_runsOrResponds hrun

theorem stepFrame_runsOrResponds (h : stepFrame s = .next t) : t.RunsOrResponds := by
  obtain ⟨op, p, l, -, -, -, ⟨-, r, -, rfl⟩ | ⟨-, -, rfl⟩ | ⟨-, -, rfl⟩⟩ := stepFrame_eq_next h
  · exact .of_busy rfl
  · exact .of_busy rfl
  · exact raise_runsOrResponds s _

theorem stepWindow_runsOrResponds (h : stepWindow s = .next t) : t.RunsOrResponds := by
  obtain ⟨p, w, -, -, ⟨-, rfl⟩ | ⟨-, l, rest, -, rfl⟩⟩ := stepWindow_eq_next h
  · exact .of_busy rfl
  · exact .of_done rfl rfl

theorem stepRegionEnd_runsOrResponds (h : stepRegionEnd s = .next t) : t.RunsOrResponds := by
  obtain ⟨p, op, d, l, rest, -, -, -, -, ⟨-, rfl⟩ | ⟨-, rfl⟩⟩ := stepRegionEnd_eq_next h
  · exact .of_done rfl rfl
  · exact .of_busy rfl

theorem stepPadding_runsOrResponds (h : stepPadding s = .next t) : t.RunsOrResponds := by
  obtain ⟨p, l, w, -, -, -, ⟨-, rfl⟩ | ⟨-, rfl⟩⟩ := stepPadding_eq_next h
  · exact .of_busy rfl
  · exact raise_runsOrResponds s _

theorem step_runsOrResponds (hr : s.resetLine = false) (hrun : s.Running) (h : step s = .next t) :
    t.RunsOrResponds := by
  obtain ⟨hreset, -⟩ | ⟨-, ⟨hrest, -⟩ | ⟨-, h⟩ | ⟨-, h⟩ | ⟨-, h⟩ | ⟨-, h⟩ | ⟨-, p, e, -, -, ⟨-, h⟩ | ⟨-, h⟩⟩ | ⟨-, h⟩⟩ :=
    step_eq_next h
  · exact absurd hreset (by simp [hr])
  · exact absurd hrest hrun.not_resting
  · exact fetch_runsOrResponds h
  · exact fetch_runsOrResponds h
  · exact stepFrame_runsOrResponds h
  · exact stepWindow_runsOrResponds h
  · exact fetch_runsOrResponds h
  · exact stepRegionEnd_runsOrResponds h
  · exact stepPadding_runsOrResponds h

/-- A running request that has reached `DONE` or `ERROR` was not reset: reset answers `IDLE`. -/
theorem step_to_end_responds (hrun : s.Running) (h : step s = .next t) (hend : t.phase = .done ∨ t.phase = .error) :
    t.response.isSome := by
  cases hr : s.resetLine with
  | true =>
    rw [step_of_reset hr] at h
    cases h
    simp at hend
  | false =>
    obtain hgoes | hresp := step_runsOrResponds hr hrun h
    · exact absurd (.inr hend) hgoes.not_resting
    · exact hresp

/-- Between requests, only the acceptance of the first waiting request changes what is observed. -/
theorem stepResting_holds_response (h : stepResting s = .next t) :
    (t.phase = s.phase ∧ t.response = s.response) ∨
      ∃ r, s.requests.head? = some r ∧ r.op.toNat ≤ 4 ∧ r.p0 ≤ r.len ∧ t.req = some r ∧ t.Running := by
  obtain ⟨-, rfl⟩ | ⟨r, rest, hlist, ⟨⟨hop, hle⟩, rfl⟩ | ⟨-, rfl⟩⟩ := stepResting_eq_next h
  · exact .inl ⟨rfl, rfl⟩
  · exact .inr ⟨r, by simp only [hlist, List.head?_cons], hop, hle, rfl, _, rfl⟩
  · exact .inl ⟨rfl, State.response_congr rfl rfl rfl⟩

end

/-- Settles O5: a request that ends leaves a response, and only an acceptance or reset takes it away. -/
theorem responseReadableUntilAcceptOrReset : Obligations.ResponseReadableUntilAcceptOrReset := by
  refine ⟨fun s hrun => hrun.response_none, fun s t hrun hstep hend => step_to_end_responds hrun hstep hend,
    fun s t hph hstep => ?_⟩
  cases hr : s.resetLine with
  | true => exact .inr (.inl rfl)
  | false =>
    rw [step_of_resting hr (.inr hph)] at hstep
    obtain hheld | haccepted := stepResting_holds_response hstep
    · exact .inl hheld
    · exact .inr (.inr haccepted)

end Sys2Proof.Machine
